-- ==== Sys2Proof/Word.lean ====
section
/-! DEFINITION. The word types of the engine (00_scope.md R5, R7; 10_state.md R23; 20_memory.md R52; 30_encoding.md R80). -/

namespace Sys2Proof

/-- A data word: an unsigned 64-bit integer (R5 `W` = 64, R7). Bit 0 is the least significant bit. -/
abbrev Word := BitVec 64

/-- One byte of a block as a host or a bus sees it (R50, R53); the engine itself never sees one. -/
abbrev Byte := BitVec 8

/-- A micro-word, the 8-bit encoding of a micro-op (R80). -/
abbrev MicroWord := BitVec 8

/-- A host word address: 9 bits, naming one 64-bit word (R52, R58). -/
abbrev HostAddr := BitVec 9

end Sys2Proof
end

