-- ==== Sys2Proof/Syntax.lean ====
section
/-! DEFINITION. The instructions: one constructor per row of spec/opcode_table.json, the two raw formats they are encoded in, and
the pseudo-instructions (30_encoding.md R80, R81, R87, R89). -/

namespace Sys2Proof

/-- The nine micro-ops of the sequencer (R81) and the three host commands (R87). The operand of a micro-op is the 3-bit number
`n` of R82: a window number `k`, a column number `c` or a wiring number `w`, each 0 to 7, so the type is the range check. -/
inductive Instr where
  | xorin
  | ldrow (n : BitVec 3)
  | ldcol (n : BitVec 3)
  | g (n : BitVec 3)
  | strow (n : BitVec 3)
  | stcol (n : BitVec 3)
  | bar
  | fold
  | done
  | nop
  | start
  | clr
  deriving DecidableEq, Repr

/-- The three fields of the format UW8 (R80): `op` = bits 7:4, `z` = bit 3, `n` = bits 2:0. -/
structure Uw8 where
  op : BitVec 4
  z : BitVec 1
  n : BitVec 3
  deriving DecidableEq, Repr

/-- The two fields of a command word, format HCMD64 (R28, R87): `cmd` = bits 1:0, `reserved` = bits 63:2. -/
structure Hcmd64 where
  reserved : BitVec 62
  cmd : BitVec 2
  deriving DecidableEq, Repr

/-- Why a word is no instruction. The first three make a micro-word illegal (R84, R86), the last two make a command word
illegal (R28, R179). -/
inductive DecodeError where
  /-- Bit 3 of a micro-word is 1 (R80: `z` must be 0). -/
  | zBitSet
  /-- `op` is 0x0 or in 0xA..0xF (R81, R84). -/
  | reservedOpcode
  /-- A micro-op without operand has `n` different from 0 (R82, R84). -/
  | operandNotZero
  /-- A bit of `d[63:2]` of a command word is 1 (R28). -/
  | reservedCommandBits
  /-- `CMD` = 3 (R28). -/
  | reservedCommand
  deriving DecidableEq, Repr

/-- An encoded instruction: a micro-word of the micro-program, or the data word of a host write to CTRL. -/
inductive Encoded where
  | uw8 (u : MicroWord)
  | hcmd64 (d : Word)
  deriving DecidableEq, Repr

/-- The pseudo-instructions of R89. -/
inductive Pseudo where
  | p
  | gcols
  | gdiags
  | rowround (k : BitVec 3)
  | colround (c : BitVec 3)
  | pass1
  | pass2
  | compress
  deriving DecidableEq, Repr

/-- The group numbers, column numbers and wiring numbers 0..7 in ascending order (R82, R172). -/
def groups : List (BitVec 3) := [0, 1, 2, 3, 4, 5, 6, 7]

end Sys2Proof
end

