-- ==== Sys2Proof/WellFormed.lean ====
section
/-! DEFINITION. Well-formedness of the two raw formats (30_encoding.md R80, R82, R84; 10_state.md R28). An `Instr` needs no check of
its own: its only operand has the type `BitVec 3`, which is the range 0..7 of R82. -/

namespace Sys2Proof

/-- R80: bit 3 of a micro-word must be 0. -/
def Uw8.zClear (f : Uw8) : Bool := f.z == 0#1

/-- R81, R84: the operation codes in use are 0x1 to 0x9. -/
def Uw8.opDefined (f : Uw8) : Bool := 0x1#4 ≤ f.op && f.op ≤ 0x9#4

/-- R82: `XORIN` (0x1), `BAR` (0x7), `FOLD` (0x8) and `DONE` (0x9) have no operand. -/
def Uw8.takesOperand (f : Uw8) : Bool := !(f.op == 0x1#4 || f.op == 0x7#4 || f.op == 0x8#4 || f.op == 0x9#4)

/-- R82: where a micro-op has no operand, `n` must be 0. -/
def Uw8.operandOk (f : Uw8) : Bool := f.takesOperand || f.n == 0#3

/-- A micro-word's fields are those of one of the 44 legal micro-words (R81, R84). -/
def Uw8.wellFormed (f : Uw8) : Bool := f.zClear && f.opDefined && f.operandOk

/-- R28: bits 63:2 of a command word must be written as zero. -/
def Hcmd64.reservedClear (f : Hcmd64) : Bool := f.reserved == 0#62

/-- R28: the value 3 of `CMD` is reserved. -/
def Hcmd64.cmdDefined (f : Hcmd64) : Bool := f.cmd != 3#2

/-- A command word's fields are those of `NOP`, `START` or `CLR` (R28, R87). -/
def Hcmd64.wellFormed (f : Hcmd64) : Bool := f.reservedClear && f.cmdDefined

end Sys2Proof
end

