-- ==== Sys2Proof/Decode.lean ====
section
/-! DEFINITION. The decoder (total, rejecting by name) and the encoder (30_encoding.md R80 to R87; 44_sequencer.md R179; the
expansions of the pseudo-instructions, R89). -/

namespace Sys2Proof

/-- The fields of a micro-word (R80). -/
def uw8Fields (u : MicroWord) : Uw8 :=
  { op := u.extractLsb' 4 4, z := u.extractLsb' 3 1, n := u.extractLsb' 0 3 }

/-- The micro-word with the given fields (R80). -/
def uw8Word (f : Uw8) : MicroWord := f.op ++ f.z ++ f.n

/-- The fields of a command word (R28). -/
def hcmdFields (d : Word) : Hcmd64 :=
  { reserved := d.extractLsb' 2 62, cmd := d.extractLsb' 0 2 }

/-- A micro-op that takes no operand: `n` must be 0 (R86). -/
def withoutOperand (n : BitVec 3) (i : Instr) : Except DecodeError Instr :=
  if n = 0 then .ok i else .error .operandNotZero

/-- `Decode` of R86 on the fields of a micro-word. -/
def decodeUw8 (f : Uw8) : Except DecodeError Instr :=
  if f.z = 1 then .error .zBitSet
  else if f.op = 0x1 then withoutOperand f.n .xorin
  else if f.op = 0x2 then .ok (.ldrow f.n)
  else if f.op = 0x3 then .ok (.ldcol f.n)
  else if f.op = 0x4 then .ok (.g f.n)
  else if f.op = 0x5 then .ok (.strow f.n)
  else if f.op = 0x6 then .ok (.stcol f.n)
  else if f.op = 0x7 then withoutOperand f.n .bar
  else if f.op = 0x8 then withoutOperand f.n .fold
  else if f.op = 0x9 then withoutOperand f.n .done
  else .error .reservedOpcode

/-- `Decode(u)` of R86, over all 256 micro-words. -/
def decodeUop (u : MicroWord) : Except DecodeError Instr := decodeUw8 (uw8Fields u)

/-- The decoding part of `Command(d)` of R179 on the fields of a command word: the reserved bits and the reserved value first. -/
def decodeHcmd64 (f : Hcmd64) : Except DecodeError Instr :=
  if f.reserved ≠ 0 then .error .reservedCommandBits
  else if f.cmd = 3 then .error .reservedCommand
  else if f.cmd = 0 then .ok .nop
  else if f.cmd = 1 then .ok .start
  else .ok .clr

/-- The decoding part of `Command(d)` of R179, over all 2^64 command words. -/
def decodeCommand (d : Word) : Except DecodeError Instr := decodeHcmd64 (hcmdFields d)

/-- The decoder over both formats. -/
def decode : Encoded → Except DecodeError Instr
  | .uw8 u => decodeUop u
  | .hcmd64 d => decodeCommand d

/-- The encoder, from the tables of R81 and R87. -/
def encode : Instr → Encoded
  | .xorin => .uw8 (uw8Word ⟨0x1, 0, 0⟩)
  | .ldrow n => .uw8 (uw8Word ⟨0x2, 0, n⟩)
  | .ldcol n => .uw8 (uw8Word ⟨0x3, 0, n⟩)
  | .g n => .uw8 (uw8Word ⟨0x4, 0, n⟩)
  | .strow n => .uw8 (uw8Word ⟨0x5, 0, n⟩)
  | .stcol n => .uw8 (uw8Word ⟨0x6, 0, n⟩)
  | .bar => .uw8 (uw8Word ⟨0x7, 0, 0⟩)
  | .fold => .uw8 (uw8Word ⟨0x8, 0, 0⟩)
  | .done => .uw8 (uw8Word ⟨0x9, 0, 0⟩)
  | .nop => .hcmd64 0
  | .start => .hcmd64 1
  | .clr => .hcmd64 2

/-- A row of the opcode map (R81, R87) without its name: a word `x` of `width` bits is the row's instruction exactly when
`x and mask = match`. -/
structure OpcodeRow where
  width : Nat
  pattern : Nat
  mask : Nat
  deriving DecidableEq, Repr

/-- The rows of R81 in the table's order, then those of R87. -/
def opcodeRow : Instr → OpcodeRow
  | .xorin => ⟨8, 0x10, 0xFF⟩
  | .ldrow _ => ⟨8, 0x20, 0xF8⟩
  | .ldcol _ => ⟨8, 0x30, 0xF8⟩
  | .g _ => ⟨8, 0x40, 0xF8⟩
  | .strow _ => ⟨8, 0x50, 0xF8⟩
  | .stcol _ => ⟨8, 0x60, 0xF8⟩
  | .bar => ⟨8, 0x70, 0xFF⟩
  | .fold => ⟨8, 0x80, 0xFF⟩
  | .done => ⟨8, 0x90, 0xFF⟩
  | .nop => ⟨64, 0x0, 0xFFFFFFFFFFFFFFFF⟩
  | .start => ⟨64, 0x1, 0xFFFFFFFFFFFFFFFF⟩
  | .clr => ⟨64, 0x2, 0xFFFFFFFFFFFFFFFF⟩

/-- The number of bits of an encoded instruction and its bits as one number. -/
def Encoded.bits : Encoded → Nat × Nat
  | .uw8 u => (8, u.toNat)
  | .hcmd64 d => (64, d.toNat)

/-- The eight `G` micro-ops of one `P`, in the order of R123. -/
def expandP : List Instr := groups.map .g

/-- `LDROW k`, `P`, `STROW k` (R89). -/
def expandRowround (k : BitVec 3) : List Instr := .ldrow k :: expandP ++ [.strow k]

/-- `LDCOL c`, `P`, `STCOL c` (R89). -/
def expandColround (c : BitVec 3) : List Instr := .ldcol c :: expandP ++ [.stcol c]

/-- The micro-ops a pseudo-instruction stands for (R89). -/
def expandPseudo : Pseudo → List Instr
  | .p => expandP
  | .gcols => [.g 0, .g 1, .g 2, .g 3]
  | .gdiags => [.g 4, .g 5, .g 6, .g 7]
  | .rowround k => expandRowround k
  | .colround c => expandColround c
  | .pass1 => groups.flatMap expandRowround
  | .pass2 => groups.flatMap expandColround
  | .compress => .xorin :: groups.flatMap expandRowround ++ .bar :: groups.flatMap expandColround ++ [.fold, .done]

/-- The instruction the decoder reads from a word of the opcode table: `nbits` = 8 for a row of format UW8, `nbits` = 64 for a row
of format HCMD64. Every instruction is one word long (R83, R87), so no other width is one. -/
def decodeTableWord (nbits w : Nat) : Option Instr :=
  if w < 2 ^ nbits then
    if nbits = 8 then (decodeUop (BitVec.ofNat 8 w)).toOption
    else if nbits = 64 then (decodeCommand (BitVec.ofNat 64 w)).toOption
    else none
  else none

end Sys2Proof
end

