-- ==== Sys2Proof/Config.lean ====
section
/-! DEFINITION. What an implementation or a platform fixes, and the free values (00_scope.md R6, R13; 20_memory.md R53, R69).
The parameters of R6 that no rule reads (G_LANES, P_UNITS, G_STAGES, T_STEP, T_COMPRESS) have no name here: log 13. -/

namespace Sys2Proof.Config

/-- FREE VALUE. The word that the draw number `draw` finds at the place `place` when a rule reads storage that is
unspecified (R13), or that a refused host read returns (R69). It has no body: nothing can be proved of its value (log 1, log 3).
DESIGN CHOICE: the key holds no engine number, so two engines of a System whose draw counters agree find the same free word at the same place;
R13 and R214 leave it open whether they agree (log 12). -/
opaque freeWord (draw place : Nat) : Word

/-- FREE VALUE. The 128 written-bits that the fault entry number `draw` leaves in WA (`which` = 0) and in WB (`which` = 1):
unspecified after a fault (R40, R204; log 2). DESIGN CHOICE: as for `freeWord`, the key holds no engine number (log 12). -/
opaque freeBits (draw which : Nat) : BitVec 128

/-- The number of the 4096-byte page at which a platform puts the engine's window. DESIGN CHOICE: R60 leaves it to the platform where each engine's
window is; the model gives every engine of a System this one constant, each on a bus of its own (log 11, log 12). -/
opaque basePage : Nat

/-- `BASE` of R53: a platform constant that is a multiple of 4096 (log 11). -/
def base : Nat := 4096 * basePage

end Sys2Proof.Config
end

