-- ==== Sys2Proof/Machine/Urom.lean ====
section
/-! DEFINITION. The fixed micro-program of the hardware (44_sequencer.md R172), written from that rule's table of indices. -/

namespace Sys2Proof.Machine

/-- The eight micro-words `G 0` .. `G 7`. -/
def gWords : List MicroWord := [0x40, 0x41, 0x42, 0x43, 0x44, 0x45, 0x46, 0x47]

/-- Indices 1 + 10k to 10 + 10k: `LDROW k`, the eight `G`, `STROW k`. -/
def rowWords (k : Nat) : List MicroWord :=
  BitVec.ofNat 8 (0x20 + k) :: gWords ++ [BitVec.ofNat 8 (0x50 + k)]

/-- Indices 82 + 10c to 91 + 10c: `LDCOL c`, the eight `G`, `STCOL c`. -/
def colWords (c : Nat) : List MicroWord :=
  BitVec.ofNat 8 (0x30 + c) :: gWords ++ [BitVec.ofNat 8 (0x60 + c)]

/-- `UROM` of R172: 164 micro-words, index 0 first. -/
def uromWords : List MicroWord :=
  0x10 :: (List.range 8).flatMap rowWords ++ 0x70 :: (List.range 8).flatMap colWords ++ [0x80, 0x90]

end Sys2Proof.Machine
end

