-- ==== Sys2Proof/Machine/State.lean ====
section
/-! DEFINITION. The state of one engine (10_state.md: the table "State of one engine, complete list"), the turns of the outside world, the
outcomes that stop a step, and the state after reset (R42). -/

namespace Sys2Proof.Machine

/-- `PHASE` of R25. -/
inductive Phase where
  | idle
  | busy
  | done
  | fault
  deriving DecidableEq, Repr

/-- What one word of storage holds: a word, or nothing that the spec gives a value ("unspecified", R13). The mark is the spec's own value of a
word after reset, `CLR` and a fault (R22, R37, R42); reading a marked word never stops the machine (log 1). -/
inductive Cell where
  | word (w : Word)
  | unspecified
  deriving DecidableEq, Repr

/-- The buffers A, B and Z of the engine data space (R38, R58): pairs of an engine word address and the word held there, addresses strictly
rising. An address that is not listed is unspecified (log 1, log 8). -/
abbrev Memory := List (Nat × Word)

/-- A transaction at the host port (R68, R69). -/
inductive Transaction where
  | write (addr : HostAddr) (d : Word)
  | read (addr : HostAddr)
  deriving DecidableEq, Repr

/-- An access on the byte-addressed bus of a platform (R53): the byte address with the bytes to write, or with the number of bytes to read. -/
inductive BusAccess where
  | write (byteAddr : Nat) (bytes : List Byte)
  | read (byteAddr : Nat) (size : Nat)
  deriving DecidableEq, Repr

/-- Whose turn the next step is, and what happens in it (R55, R230): the sequencer's, the host's at the port or over the bus adapter, or the
reset input's (log 4). -/
inductive Event where
  | engine
  | port (t : Transaction)
  | bus (b : BusAccess)
  | reset
  deriving DecidableEq, Repr

/-- What a host read returned: a word at the port (R69), or its 8 bytes on the bus (R50, R53). -/
inductive Reply where
  | word (w : Word)
  | bytes (bs : List Byte)
  deriving DecidableEq, Repr

/-- The outcomes `fault` of a step: none. The engine's own faults (R200) are architectural: they record ERRINFO, enter the phase FAULT and are
NEXT states (R204). No rule of the spec leaves an instruction without an effect. -/
inductive Fault where
  deriving DecidableEq, Repr

/-- The outcomes `refused` of a step. -/
inductive Refusal where
  /-- Raised by an arm of `exec` for an instruction without a meaning (safe). No arm raises it. -/
  | notModelled (mnemonic : String)
  /-- Raised by the bus adapter for an access that is not exactly one aligned 8-byte word of the engine's window (R53, U11: "a model refuses
  it"). Safe: the engine is not reached. -/
  | busAccess
  deriving DecidableEq, Repr

/-- The state of one engine. The first eight fields are the spec's; the last five are the model's own (log 4, log 5, log 6, log 17). -/
structure State where
  /-- The working registers `V[0..15]` (R20). -/
  v : Vector Cell 16
  /-- The micro-program counter (R23). -/
  upc : BitVec 8
  /-- `PHASE` (R25). -/
  phase : Phase
  /-- `ERRINFO` (R30). -/
  errinfo : Word
  /-- The buffers `A`, `B`, `Z` (R34, R35, R36) in the engine data space. -/
  mem : Memory
  /-- The written-bits of `A` (R39): bit `j` is `WA[j]`. -/
  wa : BitVec 128
  /-- The written-bits of `B` (R39): bit `j` is `WB[j]`. -/
  wb : BitVec 128
  /-- The micro-program that is fetched from: the constant `UROM` in the hardware (R172), written by no step (R67). -/
  urom : List MicroWord
  /-- The pending turns, oldest first; when none is left the sequencer moves (R173). -/
  events : List Event
  /-- What host reads returned, newest first. -/
  replies : List Reply
  /-- The number of free values drawn so far. -/
  draws : Nat
  /-- A rule has read an unspecified value: R13's "fault of the model". -/
  modelFault : Bool
  deriving DecidableEq, Repr

/-- What a meaning or a step answers. -/
abbrev Result := Host.Outcome State Fault Refusal

/-- All sixteen registers unspecified (R22). -/
def unspecifiedV : Vector Cell 16 := Vector.replicate 16 .unspecified

/-- The state after reset (R42), with no turn pending. -/
def State.reset : State :=
  { v := unspecifiedV
    upc := 0
    phase := .idle
    errinfo := 0
    mem := []
    wa := 0
    wb := 0
    urom := uromWords
    events := []
    replies := []
    draws := 0
    modelFault := false }

end Sys2Proof.Machine
end

