-- ==== Sys2Proof/Machine/Flags.lean ====
section
/-! DEFINITION. The engine has no arithmetic flags (10_state.md R26). This file holds its status bits: the phase encoding (R25), the registers
STATUS (R29), ERRINFO (R30) and CTRL (R28) as the host reads them, the level outputs (60_exceptions.md R210) and the fault codes (R200). -/

namespace Sys2Proof.Machine

/-- The 2-bit encoding of `PHASE` (R25). -/
def phaseBits : Phase → BitVec 2
  | .idle => 0
  | .busy => 1
  | .done => 2
  | .fault => 3

/-- The four fault codes (R200). -/
inductive FaultCode where
  | precond
  | cmd
  | access
  | uop
  deriving DecidableEq, Repr

/-- The value of a fault code in `ERRINFO.CODE` (R30, R200). -/
def faultCodeBits : FaultCode → BitVec 4
  | .precond => 1
  | .cmd => 2
  | .access => 3
  | .uop => 4

/-- The level output `busy` (R210) and bit 0 of STATUS (R29). -/
def busyOut (s : State) : Bool := s.phase == .busy

/-- The level output `done` (R210) and bit 1 of STATUS (R29). -/
def doneOut (s : State) : Bool := s.phase == .done

/-- The level output `err` (R210) and bit 2 of STATUS (R29). -/
def errOut (s : State) : Bool := s.phase == .fault

/-- `STATUS` (R29): bits 63:3 read as zero. -/
def statusWord (s : State) : Word :=
  0#61 ++ (BitVec.ofBool (errOut s) ++ (BitVec.ofBool (doneOut s) ++ BitVec.ofBool (busyOut s)))

/-- The word of `ERRINFO` with the given fields (R30): ADDR in 24:16, UPC in 15:8, CODE in 3:0, the reserved bits zero. -/
def errinfoWord (code : BitVec 4) (upc : BitVec 8) (addr : HostAddr) : Word :=
  0#39 ++ (addr ++ (upc ++ (0#4 ++ code)))

/-- `ERRINFO.CODE` (R30). -/
def errinfoCode (w : Word) : BitVec 4 := w.extractLsb' 0 4

/-- `ERRINFO.UPC` (R30). -/
def errinfoUpc (w : Word) : BitVec 8 := w.extractLsb' 8 8

/-- `ERRINFO.ADDR` (R30). -/
def errinfoAddr (w : Word) : HostAddr := w.extractLsb' 16 9

/-- What a host read of `CTRL` returns (R28): the register stores nothing. -/
def ctrlWord : Word := 0

end Sys2Proof.Machine
end

