-- ==== Sys2Proof/Machine/Operands.lean ====
section
/-! DEFINITION. The operand forms: the wiring table of the register shuffler (41_p_round.md R120), the two index functions of the index
multiplexer (42_gather_scatter.md R140), and the engine word addresses of the buffers (20_memory.md R58). -/

namespace Sys2Proof.Machine

/-- The four registers that a wiring connects to the operand positions `a`, `b`, `c`, `d` of the G unit (R120). -/
structure Wiring where
  a : Fin 16
  b : Fin 16
  c : Fin 16
  d : Fin 16
  deriving DecidableEq, Repr

/-- The table `WIRE` of R120, row `w` first to last. -/
def wireTable : Vector Wiring 8 :=
  #v[⟨0, 4, 8, 12⟩, ⟨1, 5, 9, 13⟩, ⟨2, 6, 10, 14⟩, ⟨3, 7, 11, 15⟩,
     ⟨0, 5, 10, 15⟩, ⟨1, 6, 11, 12⟩, ⟨2, 7, 8, 13⟩, ⟨3, 4, 9, 14⟩]

/-- `WIRE[w]` (R120). -/
def wire (w : BitVec 3) : Wiring := wireTable[w.toNat]'w.isLt

/-- Four values written to the registers of a wiring, to `ia` first and to `id` last (R110, R125). -/
def setWiring {α : Type} (v : Vector α 16) (r : Wiring) (a b c d : α) : Vector α 16 :=
  (((v.set r.a a).set r.b b).set r.c c).set r.d d

/-- `rowidx(n, i) = 16 * n + i` (R140). -/
def rowidx (n : BitVec 3) (i : Fin 16) : Fin 128 :=
  ⟨16 * n.toNat + i.val, by have := n.isLt; omega⟩

/-- `colidx(n, i) = 2 * n + 16 * (i >> 1) + (i and 1)` (R140). -/
def colidx (n : BitVec 3) (i : Fin 16) : Fin 128 :=
  ⟨2 * n.toNat + 16 * (i.val / 2) + i.val % 2, by have := n.isLt; omega⟩

/-- The engine word address of `A[j]` (R58). -/
def aAddr (j : Fin 128) : Nat := 0x000 + j.val

/-- The engine word address of `B[j]` (R58). -/
def bAddr (j : Fin 128) : Nat := 0x080 + j.val

/-- The engine word address of `Z[j]` (R58). -/
def zAddr (j : Fin 128) : Nat := 0x100 + j.val

/-- The place of the register `V[i]` in the numbering of free values: above the 512 word addresses (log 1). -/
def vPlace (i : Fin 16) : Nat := 0x200 + i.val

/-- The regions of the engine data space, chosen by address bits 8:7 (R58), with the three registers told apart. -/
inductive Region where
  | bufA (j : Fin 128)
  | bufB (j : Fin 128)
  | bufZ (j : Fin 128)
  | ctrl
  | status
  | errinfo
  | reserved
  deriving DecidableEq, Repr

/-- The word index inside a buffer: address bits 6:0 (R58). -/
def wordIndex (addr : HostAddr) : Fin 128 := ⟨addr.toNat % 128, Nat.mod_lt _ (by decide)⟩

/-- The address map of R58. -/
def region (addr : HostAddr) : Region :=
  if addr.toNat < 0x080 then .bufA (wordIndex addr)
  else if addr.toNat < 0x100 then .bufB (wordIndex addr)
  else if addr.toNat < 0x180 then .bufZ (wordIndex addr)
  else if addr.toNat = 0x180 then .ctrl
  else if addr.toNat = 0x181 then .status
  else if addr.toNat = 0x182 then .errinfo
  else .reserved

end Sys2Proof.Machine
end

