-- ==== Sys2Proof/Machine/Ops.lean ====
section
/-! DEFINITION. The shared operations over memory and registers, the advance of `upc`, and taking a fault (00_scope.md R11 to R13;
10_state.md R24, R40; 60_exceptions.md R204). There is no return from a fault (R208): only the reset event leaves it, and it stands
beside fault entry here (70_reset_and_hazards.md R230). -/

namespace Sys2Proof.Machine

/-- The canonical form of a memory: addresses strictly rising. An entry always is a word, and an unlisted address is unspecified, so no entry
equals what an unlisted address holds. -/
abbrev Memory.wf (m : Memory) : Prop := (m.map Prod.fst).Pairwise (· < ·)

/-- What the memory holds at an engine word address. -/
def Memory.cell : Memory → Nat → Cell
  | [], _ => .unspecified
  | (b, x) :: m, a => if a = b then .word x else Memory.cell m a

/-- `MemWrite(a, 8, w)` of R11, keeping the canonical form. -/
def Memory.write : Memory → Nat → Word → Memory
  | [], a, w => [(a, w)]
  | (b, x) :: m, a, w =>
    if a < b then (a, w) :: (b, x) :: m
    else if a = b then (a, w) :: m
    else (b, x) :: Memory.write m a w

/-- Several writes that happen together (R11): the words are given, so every right-hand side was evaluated before. -/
def Memory.writeAll (m : Memory) (ws : List (Nat × Word)) : Memory :=
  ws.foldl (fun m p => m.write p.1 p.2) m

/-- A cell holds a word. -/
def Cell.specified : Cell → Bool
  | .word _ => true
  | .unspecified => false

/-- The word that reading a cell answers: its word, or the free value of this draw at this place (R13, log 1). -/
def Cell.value (c : Cell) (draw place : Nat) : Word :=
  match c with
  | .word w => w
  | .unspecified => Config.freeWord draw place

/-- What an engine word address holds. -/
def State.cellAt (s : State) (a : Nat) : Cell := s.mem.cell a

/-- `MemRead(a, 8)` of R11. -/
def State.readMem (s : State) (a : Nat) : Word := (s.cellAt a).value s.draws a

/-- `V[i]` read (R11). -/
def State.readV (s : State) (i : Fin 16) : Word := (s.v[i]).value s.draws (vPlace i)

/-- Every one of the given addresses holds a word. -/
def State.memSpecified (s : State) (as : List Nat) : Bool := as.all fun a => (s.cellAt a).specified

/-- Every one of the given registers holds a word. -/
def State.vSpecified (s : State) (is : List (Fin 16)) : Bool := is.all fun i => (s.v[i]).specified

/-- The bookkeeping after a rule has read storage: nothing, if all it read was specified; otherwise R13's fault of the model is recorded and
the free values of this draw are used up (log 1). -/
def State.noteReads (s : State) (specified : Bool) : State :=
  if specified then s else { s with draws := s.draws + 1, modelFault := true }

/-- `upc <- upc + 1` (R24). -/
def State.advance (s : State) : State := { s with upc := s.upc + 1 }

/-- The registers replaced as a whole. -/
def State.withV (s : State) (v : Vector Cell 16) : State := { s with v := v }

/-- The memory replaced as a whole. -/
def State.withMem (s : State) (m : Memory) : State := { s with mem := m }

/-- A, B, Z and V become unspecified (R178, R204). -/
def State.dropData (s : State) : State := { s with v := unspecifiedV, mem := [] }

/-- The written-bit `j` set (R40). -/
def setBit (w : BitVec 128) (j : Fin 128) : BitVec 128 := w ||| BitVec.twoPow 128 j.val

/-- All 128 words written (R177). -/
def allWritten : BitVec 128 := BitVec.allOnes 128

/-- `raise Fault(code, addr)`: fault entry of R204. ERRINFO records the code, `upc` and the address, the phase is FAULT, the data and the
written-bits are unspecified (the written-bits take free values, log 2), `upc` is unchanged. In FAULT nothing happens. -/
def raiseFault (code : FaultCode) (addr : HostAddr) (s : State) : State :=
  if s.phase = .fault then s
  else
    { s.dropData with
      errinfo := errinfoWord (faultCodeBits code) s.upc addr
      phase := .fault
      wa := Config.freeBits s.draws 0
      wb := Config.freeBits s.draws 1
      draws := s.draws + 1 }

/-- The reset event (R230): the state of R42. The micro-program is unchanged by reset (R42), and so are the model's own fields (log 15). -/
def resetEvent (s : State) : State :=
  { s.dropData with upc := 0, phase := .idle, errinfo := 0, wa := 0, wb := 0 }

/-- A word returned to the host, recorded (log 5). -/
def State.reply (s : State) (r : Reply) : State := { s with replies := r :: s.replies }

end Sys2Proof.Machine
end

