-- ==== Sys2Proof/Machine/Command.lean ====
section
/-! DEFINITION. The host commands `NOP`, `START`, `CLR` (44_sequencer.md R176 to R180). In FAULT none of them has any effect (R179, R180). -/

namespace Sys2Proof.Machine

/-- `NOP` (R176). -/
def execNop (s : State) : Result := .next s

/-- `START` (R177), with `V` unspecified after it (R22; log 9). -/
def execStart (s : State) : Result :=
  match s.phase with
  | .idle =>
    if s.wa = allWritten ∧ s.wb = allWritten then
      .next { s with v := unspecifiedV, phase := .busy, upc := 0 }
    else .next (raiseFault .precond 0x180 s)
  | .busy => .next (raiseFault .cmd 0x180 s)
  | .done => .next (raiseFault .cmd 0x180 s)
  | .fault => .next s

/-- `CLR` (R178). -/
def execClr (s : State) : Result :=
  match s.phase with
  | .busy => .next (raiseFault .cmd 0x180 s)
  | .fault => .next s
  | .idle | .done => .next { s.dropData with phase := .idle, upc := 0, wa := 0, wb := 0 }

end Sys2Proof.Machine
end

