-- ==== Sys2Proof/Machine/Control.lean ====
section
/-! DEFINITION. The control micro-ops `BAR` and `DONE` (44_sequencer.md R174, R175). -/

namespace Sys2Proof.Machine

/-- `BAR` (R174): under the sequential order of R61 the barrier's condition always holds, so it only advances `upc`. -/
def execBar (s : State) : Result := .next s.advance

/-- `DONE` (R175). -/
def execDone (s : State) : Result := .next { s with phase := .done, upc := 0 }

end Sys2Proof.Machine
end

