-- ==== Sys2Proof/Machine/Gather.lean ====
section
/-! DEFINITION. The gather and scatter micro-ops `LDROW`, `LDCOL`, `STROW`, `STCOL` (42_gather_scatter.md R143 to R149). -/

namespace Sys2Proof.Machine

/-- The engine word addresses of a group: register `i` goes with `Z[idx i]` (R141). -/
def groupAddrs (idx : Fin 16 → Fin 128) : List Nat := (List.finRange 16).map fun i => zAddr (idx i)

/-- For all `i`: `V[i] <- Z[idx i]`, and `upc <- upc + 1` (R143, R144). -/
def gather (idx : Fin 16 → Fin 128) (s : State) : State :=
  ((s.noteReads (s.memSpecified (groupAddrs idx))).withV
    (Vector.ofFn fun i => .word (s.readMem (zAddr (idx i))))).advance

/-- The sixteen words of a scatter with their addresses (R145, R146). -/
def scatterWords (idx : Fin 16 → Fin 128) (s : State) : List (Nat × Word) :=
  (List.finRange 16).map fun i => (zAddr (idx i), s.readV i)

/-- For all `i`: `Z[idx i] <- V[i]`, and `upc <- upc + 1` (R145, R146). -/
def scatter (idx : Fin 16 → Fin 128) (s : State) : State :=
  ((s.noteReads (s.vSpecified (List.finRange 16))).withMem (s.mem.writeAll (scatterWords idx s))).advance

/-- `LDROW n` (R143). -/
def execLdrow (n : BitVec 3) (s : State) : Result := .next (gather (rowidx n) s)

/-- `LDCOL n` (R144). -/
def execLdcol (n : BitVec 3) (s : State) : Result := .next (gather (colidx n) s)

/-- `STROW n` (R145). -/
def execStrow (n : BitVec 3) (s : State) : Result := .next (scatter (rowidx n) s)

/-- `STCOL n` (R146). -/
def execStcol (n : BitVec 3) (s : State) : Result := .next (scatter (colidx n) s)

end Sys2Proof.Machine
end

