-- ==== Sys2Proof/Machine/Arith.lean ====
section
/-! DEFINITION. The three arithmetic operations of the engine (00_scope.md R8, R9, R10; 40_g_mixing.md R111) and the byte order of a
word outside it (20_memory.md R50). -/

namespace Sys2Proof.Machine

/-- R8: the sum modulo 2^64; the carry out of bit 63 is recorded nowhere. -/
def add64 (x y : Word) : Word := x + y

/-- R9: bitwise exclusive OR. -/
def xor64 (x y : Word) : Word := x ^^^ y

/-- R10 (with 90_conflicts.md C1): the right rotation by `n mod 64` positions, for every natural `n`. -/
def rotr64 (x : Word) (n : Nat) : Word := x.rotateRight n

/-- Byte `k` of a word in the byte order of R50: byte 0 is bits 7:0, byte 7 is bits 63:56. -/
def wordByte (w : Word) (k : Nat) : Byte := w.extractLsb' (8 * k) 8

/-- A word as its 8 bytes, the least significant first (R50). -/
def wordBytes (w : Word) : List Byte := (List.range 8).map (wordByte w)

/-- The word whose bytes are given, the least significant first (R50). -/
def bytesWord : List Byte → Word
  | [] => 0
  | b :: bs => (bytesWord bs <<< 8) ||| b.setWidth 64

end Sys2Proof.Machine
end

