-- ==== Sys2Proof/Machine/Mixing.lean ====
section
/-! DEFINITION. The mixing operation G: its eight elementary steps, the function Gfn and its inverse, and the micro-op `G`
(40_g_mixing.md R100 to R112). -/

namespace Sys2Proof.Machine

/-- The four operand positions of the G unit, in order. -/
structure Quad where
  a : Word
  b : Word
  c : Word
  d : Word
  deriving DecidableEq, Repr

/-- Step S1 (R100). -/
def mixS1 (q : Quad) : Quad := { q with a := add64 q.a q.b }

/-- Step S2 (R101). -/
def mixS2 (q : Quad) : Quad := { q with d := rotr64 (xor64 q.d q.a) 32 }

/-- Step S3 (R102). -/
def mixS3 (q : Quad) : Quad := { q with c := add64 q.c q.d }

/-- Step S4 (R103). -/
def mixS4 (q : Quad) : Quad := { q with b := rotr64 (xor64 q.b q.c) 24 }

/-- Step S5 (R104). -/
def mixS5 (q : Quad) : Quad := { q with a := add64 q.a q.b }

/-- Step S6 (R105). -/
def mixS6 (q : Quad) : Quad := { q with d := rotr64 (xor64 q.d q.a) 16 }

/-- Step S7 (R106). -/
def mixS7 (q : Quad) : Quad := { q with c := add64 q.c q.d }

/-- Step S8 (R107). -/
def mixS8 (q : Quad) : Quad := { q with b := rotr64 (xor64 q.b q.c) 63 }

/-- `Gfn` of R108: steps S1 to S8 in that order. -/
def gfn (q : Quad) : Quad := mixS8 (mixS7 (mixS6 (mixS5 (mixS4 (mixS3 (mixS2 (mixS1 q)))))))

/-- `GfnInv` of R112: a law for proofs; the hardware does not implement it. -/
def gfnInv (q : Quad) : Quad :=
  let q := { q with b := xor64 (rotr64 q.b 1) q.c }
  let q := { q with c := q.c - q.d }
  let q := { q with d := xor64 (rotr64 q.d 48) q.a }
  let q := { q with a := q.a - q.b }
  let q := { q with b := xor64 (rotr64 q.b 40) q.c }
  let q := { q with c := q.c - q.d }
  let q := { q with d := xor64 (rotr64 q.d 32) q.a }
  { q with a := q.a - q.b }

/-- The four registers of a wiring read as operands (R110). -/
def readQuad (s : State) (r : Wiring) : Quad := ⟨s.readV r.a, s.readV r.b, s.readV r.c, s.readV r.d⟩

/-- The four results written to the registers of a wiring, in the order of R110. -/
def writeQuad (v : Vector Cell 16) (r : Wiring) (q : Quad) : Vector Cell 16 :=
  setWiring v r (.word q.a) (.word q.b) (.word q.c) (.word q.d)

/-- `G w` (R110). -/
def execG (w : BitVec 3) (s : State) : Result :=
  let r := wire w
  .next (((s.noteReads (s.vSpecified [r.a, r.b, r.c, r.d])).withV (writeQuad s.v r (gfn (readQuad s r)))).advance)

end Sys2Proof.Machine
end

