-- ==== Sys2Proof/Machine/XorFold.lean ====
section
/-! DEFINITION. The XOR units: `XORIN` and `FOLD` (43_xor_fold.md R160 to R162). -/

namespace Sys2Proof.Machine

/-- The addresses of the 128 words of a buffer. -/
def bufferAddrs (addr : Fin 128 → Nat) : List Nat := (List.finRange 128).map addr

/-- All 128 lanes: `Z[i] <- lane i` for every `i`, the lane's words read in the state before (R162). -/
def writeLanes (lane : Fin 128 → Word) (s : State) : State :=
  s.withMem (s.mem.writeAll ((List.finRange 128).map fun i => (zAddr i, lane i)))

/-- Lane `i` of `XORIN`: `A[i] xor B[i]` (R160). -/
def xorinLane (s : State) (i : Fin 128) : Word := xor64 (s.readMem (aAddr i)) (s.readMem (bAddr i))

/-- Lane `i` of `FOLD`: `Z[i] xor A[i] xor B[i]` (R161). -/
def foldLane (s : State) (i : Fin 128) : Word :=
  xor64 (xor64 (s.readMem (zAddr i)) (s.readMem (aAddr i))) (s.readMem (bAddr i))

/-- Every word of `A` and of `B` is specified. -/
def inputsSpecified (s : State) : Bool := s.memSpecified (bufferAddrs aAddr) && s.memSpecified (bufferAddrs bAddr)

/-- `XORIN` (R160). -/
def execXorin (s : State) : Result :=
  .next ((writeLanes (xorinLane s) (s.noteReads (inputsSpecified s))).advance)

/-- `FOLD` (R161). -/
def execFold (s : State) : Result :=
  .next ((writeLanes (foldLane s)
    (s.noteReads (s.memSpecified (bufferAddrs zAddr) && inputsSpecified s))).advance)

end Sys2Proof.Machine
end

