-- ==== Sys2Proof/Machine/Dispatch.lean ====
section
/-! DEFINITION. One arm per constructor of Instr. -/

namespace Sys2Proof.Machine

def exec (i : Instr) (s : State) : Host.Outcome State Fault Refusal :=
  match i with
  | .xorin => Sys2Proof.Machine.execXorin s
  | .ldrow n => Sys2Proof.Machine.execLdrow n s
  | .ldcol n => Sys2Proof.Machine.execLdcol n s
  | .g n => Sys2Proof.Machine.execG n s
  | .strow n => Sys2Proof.Machine.execStrow n s
  | .stcol n => Sys2Proof.Machine.execStcol n s
  | .bar => Sys2Proof.Machine.execBar s
  | .fold => Sys2Proof.Machine.execFold s
  | .done => Sys2Proof.Machine.execDone s
  | .nop => Sys2Proof.Machine.execNop s
  | .start => Sys2Proof.Machine.execStart s
  | .clr => Sys2Proof.Machine.execClr s

end Sys2Proof.Machine
end

