-- ==== Sys2Proof/Machine/Sequencer.lean ====
section
/-! DEFINITION. The turn of the sequencer: fetch, decode, execute (44_sequencer.md R173), and placing a micro-word where it fetches. -/

namespace Sys2Proof.Machine

/-- The fetch of R173: the micro-word at `upc`, none past the end of the micro-program. The hardware's UROM has 164 words, so there it is none
exactly when `upc > 163`. -/
def fetch (s : State) : Option MicroWord := s.urom[s.upc.toNat]?

/-- `EngineStep` of R173 in the phase BUSY: the range check, then the decode check, then the micro-op's own rule. -/
def engineStep (s : State) : Result :=
  match fetch s with
  | none => .next (raiseFault .uop 0 s)
  | some u =>
    match decodeUop u with
    | .error _ => .next (raiseFault .uop 0 s)
    | .ok i => exec i s

/-- The sequencer's turn: a step exactly when `PHASE = BUSY`; in every other phase nothing changes (R173, R231; log 10). -/
def sequencerTurn (s : State) : Result :=
  match s.phase with
  | .busy => engineStep s
  | .idle | .done | .fault => .next s

/-- A micro-program with the word `u` at index `k`, filled up with the illegal word 0x00 where it was too short (log 7). -/
def placeMicroWord (rom : List MicroWord) (k : Nat) (u : MicroWord) : List MicroWord :=
  (rom ++ List.replicate (k + 1 - rom.length) 0x00).set k u

end Sys2Proof.Machine
end

