-- ==== Sys2Proof/Machine/Port.lean ====
section
/-! DEFINITION. The host port: the two transactions, the command register, the bus adapter, and what each turn does
(20_memory.md R50, R53, R58, R59, R68, R69; 44_sequencer.md R179). -/

namespace Sys2Proof.Machine

/-- `Command(d)` of R179 (with R12): an illegal command word raises `Fault(CMD, 0x180)`, a legal one is its command. -/
def command (d : Word) (s : State) : Result :=
  match decodeCommand d with
  | .error _ => .next (raiseFault .cmd 0x180 s)
  | .ok i => exec i s

/-- `HostWrite(addr, d)` of R68. -/
def hostWrite (addr : HostAddr) (d : Word) (s : State) : Result :=
  if s.phase = .fault then .next s
  else
    match region addr with
    | .bufA j =>
      if s.phase = .idle then .next { s with mem := s.mem.write (aAddr j) d, wa := setBit s.wa j }
      else .next (raiseFault .access addr s)
    | .bufB j =>
      if s.phase = .idle then .next { s with mem := s.mem.write (bAddr j) d, wb := setBit s.wb j }
      else .next (raiseFault .access addr s)
    | .ctrl => command d s
    | .bufZ _ | .status | .errinfo | .reserved => .next (raiseFault .access addr s)

/-- The word that a refused read, or a read in FAULT, returns: a free value of its own draw (R69, log 3). -/
def freeReply (addr : HostAddr) (s : State) : Word := Config.freeWord s.draws addr.toNat

/-- A free value of this draw has been used. -/
def State.draw (s : State) : State := { s with draws := s.draws + 1 }

/-- A read of a buffer or reserved address that R69 does not permit: in FAULT nothing else happens, otherwise `Fault(ACCESS, addr)`. -/
def refusedRead (addr : HostAddr) (s : State) : Word × State :=
  (freeReply addr s, (raiseFault .access addr s).draw)

/-- `HostRead(addr)` of R69: the word returned, and the state after. -/
def hostRead (addr : HostAddr) (s : State) : Word × State :=
  match region addr with
  | .ctrl => (ctrlWord, s)
  | .status => (statusWord s, s)
  | .errinfo => (s.errinfo, s)
  | .bufZ j =>
    if s.phase = .done then (s.readMem (zAddr j), s.noteReads (s.memSpecified [zAddr j]))
    else refusedRead addr s
  | .bufA _ | .bufB _ | .reserved => refusedRead addr s

/-- A transaction, with the form in which a read's word is given back. -/
def transact (form : Word → Reply) (t : Transaction) (s : State) : Result :=
  match t with
  | .write addr d => hostWrite addr d s
  | .read addr => .next ((hostRead addr s).2.reply (form (hostRead addr s).1))

/-- The engine word address of a bus access of `size` bytes at `byteAddr`: only exactly 8 bytes at a multiple of 8 inside the window of 512 words
at `BASE` reach the engine (R53, log 11). -/
def busWordAddr (byteAddr size : Nat) : Option HostAddr :=
  if size = 8 ∧ byteAddr % 8 = 0 ∧ Config.base ≤ byteAddr ∧ byteAddr < Config.base + 8 * 512 then
    some (BitVec.ofNat 9 ((byteAddr - Config.base) / 8))
  else none

/-- The adapter of R53: the port transaction of a bus access, or none. -/
def adapt : BusAccess → Option Transaction
  | .write byteAddr bytes => (busWordAddr byteAddr bytes.length).map fun a => .write a (bytesWord bytes)
  | .read byteAddr size => (busWordAddr byteAddr size).map .read

/-- An access on the byte-addressed bus (R53): what does not reach the engine is refused (U11). -/
def busTurn (b : BusAccess) (s : State) : Result :=
  match adapt b with
  | some t => transact (fun w => .bytes (wordBytes w)) t s
  | none => .refused .busAccess

/-- What one turn does. -/
def turn (e : Event) (s : State) : Result :=
  match e with
  | .engine => sequencerTurn s
  | .port t => transact .word t s
  | .bus b => busTurn b s
  | .reset => .next (resetEvent s)

end Sys2Proof.Machine
end

