-- ==== Sys2Proof/Machine/Step.lean ====
section
/-! DEFINITION. One step of the machine: the oldest pending turn, or the sequencer's when none is pending (20_memory.md R55; 44_sequencer.md
R173; log 4), and the placing of an instruction where the next step fetches it (log 7). -/

namespace Sys2Proof.Machine

/-- One step. A pending turn is taken off the list and happens; with no turn pending the sequencer moves, so a BUSY engine keeps stepping. -/
def step (s : State) : Host.Outcome State Fault Refusal :=
  match s.events with
  | [] => sequencerTurn s
  | e :: rest => turn e { s with events := rest }

/-- The state with an instruction placed where the next step fetches it (log 7). A micro-word (8 bits) is stored in the micro-program at
`upc`, with the phase BUSY and the sequencer's turn next. A command word (64 bits) is the data word of a host write to CTRL that is the next
turn. -/
def State.withFetchWord (s : State) (nbits w : Nat) : State :=
  if nbits = 8 then
    { s with
      urom := placeMicroWord s.urom s.upc.toNat (BitVec.ofNat 8 w)
      phase := .busy
      events := .engine :: s.events }
  else if nbits = 64 then
    { s with events := .port (.write 0x180 (BitVec.ofNat 64 w)) :: s.events }
  else s

end Sys2Proof.Machine
end

