-- ==== Sys2Proof/Machine/Assembler.lean ====
section
/-! DEFINITION. The assembler text of micro-ops and host transactions (30_encoding.md R88; log 18). -/

namespace Sys2Proof.Machine

/-- A hexadecimal digit, capital letters (R7). -/
def hexDigit (n : Nat) : Char := "0123456789ABCDEF".toList.getD n '?'

/-- `n` as `k` hexadecimal digits, most significant first (R7). -/
def hexDigits : Nat → Nat → List Char
  | 0, _ => []
  | k + 1, n => hexDigits k (n / 16) ++ [hexDigit (n % 16)]

/-- A micro-op with its operand as one decimal digit 0 to 7 (R88). -/
def withDigit (mnemonic : String) (n : BitVec 3) : List Char := mnemonic.toList ++ [' ', hexDigit n.toNat]

/-- A host transaction: `WR addr, data` or `RD addr`, the address with three hexadecimal digits and the data with sixteen (R88). -/
def transactionText : Transaction → List Char
  | .write addr d => "WR ".toList ++ hexDigits 3 addr.toNat ++ ", ".toList ++ hexDigits 16 d.toNat
  | .read addr => "RD ".toList ++ hexDigits 3 addr.toNat

/-- The text of an instruction: the mnemonic of R81 in capital letters and the operand; a host command is the write of its word to CTRL (R87). -/
def instrText : Instr → List Char
  | .xorin => "XORIN".toList
  | .ldrow n => withDigit "LDROW" n
  | .ldcol n => withDigit "LDCOL" n
  | .g n => withDigit "G" n
  | .strow n => withDigit "STROW" n
  | .stcol n => withDigit "STCOL" n
  | .bar => "BAR".toList
  | .fold => "FOLD".toList
  | .done => "DONE".toList
  | .nop => transactionText (.write 0x180 0)
  | .start => transactionText (.write 0x180 1)
  | .clr => transactionText (.write 0x180 2)

/-- Every instruction once: 44 micro-ops and 3 commands (R81, R87). -/
def allInstrs : List Instr :=
  [.xorin] ++ groups.map .ldrow ++ groups.map .ldcol ++ groups.map .g ++ groups.map .strow ++ groups.map .stcol
    ++ [.bar, .fold, .done, .nop, .start, .clr]

/-- A line without its comment, from `;` to the end, and without blanks at its two ends (R88). -/
def stripLine (line : List Char) : List Char :=
  (((line.takeWhile (· ≠ ';')).dropWhile (· = ' ')).reverse.dropWhile (· = ' ')).reverse

/-- The instruction a line of assembler text stands for, if it is one. -/
def parseLine (line : List Char) : Option Instr :=
  allInstrs.find? fun i => instrText i == stripLine line

end Sys2Proof.Machine
end

