-- ==== Sys2Proof/Machine/Round.lean ====
section
/-! DEFINITION. The round function P as a function of sixteen words (41_p_round.md R120 to R125). -/

namespace Sys2Proof.Machine

/-- The four words that a wiring names (R125). -/
def getQuad (v : Vector Word 16) (r : Wiring) : Quad := ⟨v[r.a], v[r.b], v[r.c], v[r.d]⟩

/-- Four words written to the places that a wiring names (R125). -/
def putQuad (v : Vector Word 16) (r : Wiring) (q : Quad) : Vector Word 16 := setWiring v r q.a q.b q.c q.d

/-- One line of the loop of R125: `Gfn` on the four words that the wiring `w` names, written back to their places. -/
def gAt (v : Vector Word 16) (w : BitVec 3) : Vector Word 16 := putQuad v (wire w) (gfn (getQuad v (wire w)))

/-- `Pfn` of R125: the wirings 0 to 7 in this order. -/
def pfn (v : Vector Word 16) : Vector Word 16 := groups.foldl gAt v

end Sys2Proof.Machine
end

