-- ==== Sys2Proof/Machine/Compress.lean ====
section
/-! DEFINITION. The function the engine computes: the two passes `perm` and `compress` (44_sequencer.md R170, R171). -/

namespace Sys2Proof.Machine

/-- A block: 128 words (R5, R170). -/
abbrev Block := Vector Word 128

/-- For all `i`: `z[idx i] <- v[i]` (R171). -/
def scatterBlock (idx : Fin 16 → Fin 128) (z : Block) (v : Vector Word 16) : Block :=
  (List.finRange 16).foldl (fun z i => z.set (idx i) v[i]) z

/-- One turn of a loop of R171: gather a group, apply `Pfn`, scatter it back. -/
def groupRound (idx : Fin 16 → Fin 128) (z : Block) : Block :=
  scatterBlock idx z (pfn (Vector.ofFn fun i => z[idx i]))

/-- Window `k` of pass 1 (R171). -/
def rowRound (z : Block) (k : BitVec 3) : Block := groupRound (rowidx k) z

/-- Column `c` of pass 2 (R171). -/
def colRound (z : Block) (c : BitVec 3) : Block := groupRound (colidx c) z

/-- Pass 1, the windows in the given order. -/
def rowPass (order : List (BitVec 3)) (z : Block) : Block := order.foldl rowRound z

/-- Pass 2, the columns in the given order. -/
def colPass (order : List (BitVec 3)) (z : Block) : Block := order.foldl colRound z

/-- `perm` of R171: all of pass 1 before any of pass 2. -/
def perm (r : Block) : Block := colPass groups (rowPass groups r)

/-- The word-by-word XOR of two blocks (R170 steps 1 and 4). -/
def xorBlock (x y : Block) : Block := Vector.ofFn fun i => xor64 x[i] y[i]

/-- `compress` of R170. -/
def compress (a b : Block) : Block := xorBlock (xorBlock (perm (xorBlock a b)) a) b

end Sys2Proof.Machine
end

