-- ==== Sys2Proof/Machine/System.lean ====
section
/-! DEFINITION. Several engines: N_ENGINES independent copies (00_scope.md R6; 20_memory.md R65; 60_exceptions.md R214; log 12). -/

namespace Sys2Proof.Machine

/-- A system of engines; its length is N_ENGINES. The engines have no identifiers of their own (R214): the position is the observer's. -/
abbrev System := List State

/-- N_ENGINES engines, each in the reset state: they "start in the same reset state" (R214). DESIGN CHOICE: their
counters of free values start alike too, so the free values of two engines can coincide, which the spec leaves open (log 12). -/
def systemReset (n : Nat) : System := List.replicate n State.reset

/-- Engine `k` takes one step, if there is such an engine and its step has a next state. -/
def systemStep (k : Nat) (sys : System) : Option System :=
  match sys[k]? with
  | none => none
  | some s =>
    match step s with
    | .next t => some (sys.set k t)
    | .fault _ => none
    | .refused _ => none

end Sys2Proof.Machine
end

