-- ==== Sys2Proof/Safety.lean ====
section
/-! DEFINITION. What counts as a safe run, in the terms the statements use: the invariant of the hardware's states, the blocks a state holds,
and the admitted start of an operation. -/

namespace Sys2Proof.Machine

/-- The buffer whose word `j` is at `addr j` holds the block `b`, every word specified. -/
def State.holds (s : State) (addr : Fin 128 → Nat) (b : Block) : Prop := ∀ j : Fin 128, s.cellAt (addr j) = .word b[j]

/-- The state that `START` leaves (R181): BUSY at `upc` = 0 with the hardware's micro-program, `A = a` and `B = b`, all 256 words with values. -/
structure State.Started (s : State) (a b : Block) : Prop where
  busy : s.phase = .busy
  entry : s.upc = 0
  microprogram : s.urom = uromWords
  inputA : s.holds aAddr a
  inputB : s.holds bAddr b

/-- What holds of every state the hardware can be in. -/
structure State.Inv (s : State) : Prop where
  /-- The memory has its canonical form. -/
  memCanonical : s.mem.wf
  /-- The memory lists addresses of `A`, `B` and `Z` only (R58). -/
  memInBuffers : ∀ p ∈ s.mem, p.1 < 0x180
  /-- The micro-program is `UROM` (R67, R172). -/
  uromIntact : s.urom = uromWords
  /-- The legal values of `upc` are 0 to 163 (R23). -/
  upcLegal : s.upc.toNat ≤ 163
  /-- In IDLE and DONE `upc` holds 0 (R23). -/
  upcQuiet : s.phase = .idle ∨ s.phase = .done → s.upc = 0
  /-- While `PHASE != FAULT`, ERRINFO reads as 0 (R30). -/
  noRecord : s.phase ≠ .fault → s.errinfo = 0
  /-- In FAULT, ERRINFO is the record of a fault other than UOP, with the frozen `upc` (R23, R30, R204, R206). -/
  record : s.phase = .fault →
    ∃ code addr, code ≠ FaultCode.uop ∧ s.errinfo = errinfoWord (faultCodeBits code) s.upc addr
  /-- The written-bits say which input words have a value (R37, R39). -/
  inputsTracked : s.phase ≠ .fault → ∀ j : Fin 128,
    (s.cellAt (aAddr j)).specified = s.wa.getLsbD j ∧ (s.cellAt (bAddr j)).specified = s.wb.getLsbD j
  /-- An operation has been admitted only with all 256 input words written (R177). -/
  inputsComplete : s.phase = .busy ∨ s.phase = .done → s.wa = allWritten ∧ s.wb = allWritten
  /-- In IDLE, `Z` and `V` are unspecified (R22, R37). -/
  idleData : s.phase = .idle → s.v = unspecifiedV ∧ ∀ j, s.cellAt (zAddr j) = .unspecified
  /-- In FAULT, all data is unspecified (R204). -/
  faultData : s.phase = .fault → s.v = unspecifiedV ∧ s.mem = []
  /-- After `XORIN` every word of `Z` has a value (R186). -/
  workingBlock : s.phase = .busy → 1 ≤ s.upc.toNat → ∀ j, (s.cellAt (zAddr j)).specified = true
  /-- After the first `LDROW` every register has a value (R186). -/
  workingRegisters : s.phase = .busy → 2 ≤ s.upc.toNat → ∀ i : Fin 16, (s.v[i]).specified = true
  /-- In DONE every word of the output block has a value (R36). -/
  resultBlock : s.phase = .done → ∀ j, (s.cellAt (zAddr j)).specified = true
  /-- No rule has read an unspecified value (R13, R186). -/
  noModelFault : s.modelFault = false

/-- The nine micro-ops, against the three host commands (R81, R87). -/
def isMicroOp : Instr → Bool
  | .xorin | .ldrow _ | .ldcol _ | .g _ | .strow _ | .stcol _ | .bar | .fold | .done => true
  | .nop | .start | .clr => false

/-- Several instructions executed one after another, each on the state the one before it left (R61). -/
def execAll : List Instr → State → Result
  | [], s => .next s
  | i :: is, s =>
    match exec i s with
    | .next t => execAll is t
    | .fault r => .fault r
    | .refused r => .refused r

/-- `k` steps of the machine. -/
def runSteps (k : Nat) (s : State) : Result := Host.Core.run Sys2Proof.core k s

/-- A run of one operation has ended (R183): the phase is DONE or FAULT. -/
def State.runEnded (s : State) : Bool := s.phase == .done || s.phase == .fault

/-- The register file that holds the sixteen words `v`. -/
def wordsV (v : Vector Word 16) : Vector Cell 16 := v.map .word

/-- The turns of the host's protocol that load a block (R185 step 2): `WR base + j, b[j]` for `j` in 0..127. -/
def loadTurns (addr : Fin 128 → Nat) (b : Block) : List Event :=
  (List.finRange 128).map fun j => .port (.write (BitVec.ofNat 9 (addr j)) b[j])

/-- The turns of R185 steps 2 and 3: both blocks loaded, then `START`. -/
def callTurns (a b : Block) : List Event :=
  loadTurns aAddr a ++ loadTurns bAddr b ++ [.port (.write 0x180 1)]

/-- The turns of R185 step 5: the output words read, `j` ascending. -/
def readTurns : List Event := (List.finRange 128).map fun j => .port (.read (BitVec.ofNat 9 (zAddr j)))

/-- The turns of one whole call (R185): load, `START`, 164 turns of the sequencer, the reads, `CLR`. -/
def protocolTurns (a b : Block) : List Event :=
  callTurns a b ++ List.replicate 164 .engine ++ readTurns ++ [.port (.write 0x180 2)]

/-- A host transaction that R185 allows between steps 3 and 4: a `NOP`, or a read of CTRL, STATUS or ERRINFO. -/
def Transaction.harmless : Transaction → Bool
  | .write addr d => addr == 0x180 && d == 0
  | .read addr => addr == 0x180 || addr == 0x181 || addr == 0x182

/-- A turn that cannot disturb a running operation: the sequencer's own, or a harmless transaction at the port or over the bus. -/
def harmless : Event → Bool
  | .engine => true
  | .port t => t.harmless
  | .bus b => (adapt b).any Transaction.harmless
  | .reset => false

/-- How many of the first `n` steps are the sequencer's, with the turns `es` pending: once no turn is left every step is (R173). -/
def engineTurns (n : Nat) (es : List Event) : Nat := (es.take n).count .engine + (n - es.length)

/-- In the first `n` steps the host does nothing that R185 does not allow during an operation. -/
def State.undisturbed (s : State) (n : Nat) : Prop := ∀ e ∈ s.events.take n, harmless e = true

end Sys2Proof.Machine
end

