-- ==== Sys2Proof/Certificates/Slice0/Obligations.lean ====
section
/-! DEFINITION. The statements about the model. Each docstring names the rules of the spec it formalises, or says that it is the model's own
choice and names the log entry. -/

open Sys2Proof Sys2Proof.Machine

/-! ## Encoding -/

/-- Sample words of the vectors of 95_test_vectors.md section 2.6 and of R87, each against the instruction it stands for. -/
def Obligations.SampleWordsDecodeToTheirInstruction : Prop :=
  decodeUop 0x10 = .ok .xorin ∧ decodeUop 0x27 = .ok (.ldrow 7) ∧ decodeUop 0x30 = .ok (.ldcol 0) ∧
  decodeUop 0x45 = .ok (.g 5) ∧ decodeUop 0x57 = .ok (.strow 7) ∧ decodeUop 0x60 = .ok (.stcol 0) ∧
  decodeUop 0x70 = .ok .bar ∧ decodeUop 0x80 = .ok .fold ∧ decodeUop 0x90 = .ok .done ∧
  decodeCommand 0 = .ok .nop ∧ decodeCommand 1 = .ok .start ∧ decodeCommand 2 = .ok .clr

/-- Decoding and encoding agree in both directions: the word of every instruction decodes to it, with every operand, and it is the only
word that does. The words are those of the tables of R81 and R87, written out. -/
def Obligations.DecodeAndEncodeAreInverse : Prop :=
  (∀ (e : Encoded) (i : Instr), decode e = .ok i ↔ e = encode i) ∧
  (∀ u : MicroWord,
    (decodeUop u = .ok .xorin ↔ u = 0x10) ∧
    (∀ n : BitVec 3, decodeUop u = .ok (.ldrow n) ↔ u = 0x20 + n.setWidth 8) ∧
    (∀ n : BitVec 3, decodeUop u = .ok (.ldcol n) ↔ u = 0x30 + n.setWidth 8) ∧
    (∀ n : BitVec 3, decodeUop u = .ok (.g n) ↔ u = 0x40 + n.setWidth 8) ∧
    (∀ n : BitVec 3, decodeUop u = .ok (.strow n) ↔ u = 0x50 + n.setWidth 8) ∧
    (∀ n : BitVec 3, decodeUop u = .ok (.stcol n) ↔ u = 0x60 + n.setWidth 8) ∧
    (decodeUop u = .ok .bar ↔ u = 0x70) ∧ (decodeUop u = .ok .fold ↔ u = 0x80) ∧ (decodeUop u = .ok .done ↔ u = 0x90)) ∧
  ∀ d : Word, (decodeCommand d = .ok .nop ↔ d = 0) ∧ (decodeCommand d = .ok .start ↔ d = 1) ∧ (decodeCommand d = .ok .clr ↔ d = 2)

/-- R84: the illegal micro-words are the three classes of 112, 72 and 28 words, 212 in all; an engine step that fetches one raises
`Fault(UOP, 0)` and executes nothing; `0x00` is one; UROM holds none. -/
def Obligations.IllegalMicroWordsFaultAndExecuteNothing : Prop :=
  (∀ u : MicroWord, (decodeUop u).toOption = none ↔
    ((u.toNat / 16 = 0 ∨ 0xA ≤ u.toNat / 16) ∨
     ((1 ≤ u.toNat / 16 ∧ u.toNat / 16 ≤ 9) ∧ u.getLsbD 3 = true) ∨
     ((0x11 ≤ u.toNat ∧ u.toNat ≤ 0x17) ∨ (0x71 ≤ u.toNat ∧ u.toNat ≤ 0x77) ∨
      (0x81 ≤ u.toNat ∧ u.toNat ≤ 0x87) ∨ (0x91 ≤ u.toNat ∧ u.toNat ≤ 0x97)))) ∧
  ((List.range 256).filter fun k => (decodeUop (BitVec.ofNat 8 k)).toOption.isNone).length = 212 ∧
  ((List.range 256).filter fun k => k / 16 = 0 ∨ 0xA ≤ k / 16).length = 112 ∧
  ((List.range 256).filter fun k => (1 ≤ k / 16 ∧ k / 16 ≤ 9) ∧ k.testBit 3 = true).length = 72 ∧
  ((List.range 256).filter fun k => (0x11 ≤ k ∧ k ≤ 0x17) ∨ (0x71 ≤ k ∧ k ≤ 0x77) ∨
    (0x81 ≤ k ∧ k ≤ 0x87) ∨ (0x91 ≤ k ∧ k ≤ 0x97)).length = 28 ∧
  (∀ (s : State) (u : MicroWord) (why : DecodeError), s.phase = .busy → s.events = [] → fetch s = some u →
    decodeUop u = .error why → step s = .next (raiseFault .uop 0 s)) ∧
  (decodeUop 0x00).toOption = none ∧
  (∀ u ∈ uromWords, ∃ i, decodeUop u = .ok i)

/-- R172: UROM has 164 micro-words, at the indices the rule gives. -/
def Obligations.UromHoldsTheListedWords : Prop :=
  uromWords.length = 164 ∧ uromWords[0]? = some 0x10 ∧
  (∀ k < 8, uromWords[1 + 10 * k]? = some (BitVec.ofNat 8 (0x20 + k)) ∧
    (∀ w < 8, uromWords[1 + 10 * k + 1 + w]? = some (BitVec.ofNat 8 (0x40 + w))) ∧
    uromWords[1 + 10 * k + 9]? = some (BitVec.ofNat 8 (0x50 + k))) ∧
  uromWords[81]? = some 0x70 ∧
  (∀ c < 8, uromWords[82 + 10 * c]? = some (BitVec.ofNat 8 (0x30 + c)) ∧
    (∀ w < 8, uromWords[82 + 10 * c + 1 + w]? = some (BitVec.ofNat 8 (0x40 + w))) ∧
    uromWords[82 + 10 * c + 9]? = some (BitVec.ofNat 8 (0x60 + c))) ∧
  uromWords[162]? = some 0x80 ∧ uromWords[163]? = some 0x90

/-- R89: UROM is exactly the expansion of the pseudo-instruction COMPRESS, and the pseudo-instructions have the listed numbers of micro-words. -/
def Obligations.UromIsTheExpansionOfCompress : Prop :=
  uromWords.map Encoded.uw8 = (expandPseudo .compress).map encode ∧
  expandPseudo .p = [.g 0, .g 1, .g 2, .g 3, .g 4, .g 5, .g 6, .g 7] ∧
  expandPseudo .gcols = [.g 0, .g 1, .g 2, .g 3] ∧ expandPseudo .gdiags = [.g 4, .g 5, .g 6, .g 7] ∧
  (∀ k, expandPseudo (.rowround k) = .ldrow k :: expandPseudo .p ++ [.strow k] ∧ (expandPseudo (.rowround k)).length = 10) ∧
  (∀ k, expandPseudo (.colround k) = .ldcol k :: expandPseudo .p ++ [.stcol k] ∧ (expandPseudo (.colround k)).length = 10) ∧
  expandPseudo .pass1 = groups.flatMap (fun k => expandPseudo (.rowround k)) ∧ (expandPseudo .pass1).length = 80 ∧
  expandPseudo .pass2 = groups.flatMap (fun k => expandPseudo (.colround k)) ∧ (expandPseudo .pass2).length = 80 ∧
  expandPseudo .compress = .xorin :: expandPseudo .pass1 ++ .bar :: expandPseudo .pass2 ++ [.fold, .done] ∧
  (expandPseudo .compress).length = 164

/-- From R88 and R7: the text of a micro-op is its mnemonic in capital letters and, with an operand, one space and one decimal digit; the text of a
host transaction is `WR` with an address of three and data of sixteen hexadecimal digits, or `RD` with an address, the most significant digit first.
The text of an instruction, with a blank and a comment after it, is read back as that instruction. The model's own choices (log 18): the treatment
of blanks, and a host command written as the write of its word to CTRL. -/
def Obligations.AssemblerTextReadsBack : Prop :=
  (instrText .xorin = "XORIN".toList ∧ instrText .bar = "BAR".toList ∧ instrText .fold = "FOLD".toList ∧ instrText .done = "DONE".toList) ∧
  (∀ n : BitVec 3,
    let digit := Char.ofNat (48 + n.toNat)
    instrText (.ldrow n) = "LDROW ".toList ++ [digit] ∧ instrText (.ldcol n) = "LDCOL ".toList ++ [digit] ∧
    instrText (.g n) = "G ".toList ++ [digit] ∧ instrText (.strow n) = "STROW ".toList ++ [digit] ∧
    instrText (.stcol n) = "STCOL ".toList ++ [digit]) ∧
  (instrText .nop = "WR 180, 0000000000000000".toList ∧ instrText .start = "WR 180, 0000000000000001".toList ∧
    instrText .clr = "WR 180, 0000000000000002".toList) ∧
  (∀ (addr : HostAddr) (d : Word),
    transactionText (.write addr d) = "WR ".toList ++ hexDigits 3 addr.toNat ++ ", ".toList ++ hexDigits 16 d.toNat ∧
    transactionText (.read addr) = "RD ".toList ++ hexDigits 3 addr.toNat) ∧
  (∀ k n : Nat, (hexDigits k n).length = k ∧ ∀ i < k,
    let digit := n / 16 ^ (k - 1 - i) % 16
    (hexDigits k n)[i]? = some (if digit < 10 then Char.ofNat (48 + digit) else Char.ofNat (55 + digit))) ∧
  ∀ i : Instr, parseLine (instrText i ++ " ; text".toList) = some i

/-! ## Words, index functions, wirings -/

/-- R8 and R9: addition modulo 2^64 and bitwise exclusive OR. -/
def Obligations.AdditionWrapsAndXorIsBitwise : Prop :=
  ∀ x y : Word, (add64 x y).toNat = (x.toNat + y.toNat) % 2 ^ 64 ∧
    ∀ i < 64, ((xor64 x y).getLsbD i = true ↔ x.getLsbD i ≠ y.getLsbD i)

/-- R10: `rotr64` for every natural amount, by bits and by shifts. -/
def Obligations.RotationMovesBitsRight : Prop :=
  ∀ (x : Word) (n : Nat),
    (∀ i < 64, (rotr64 x n).getLsbD i = x.getLsbD ((i + n % 64) % 64)) ∧
    (1 ≤ n % 64 → rotr64 x n = (x >>> (n % 64)) ||| (x <<< (64 - n % 64))) ∧
    (n % 64 = 0 → rotr64 x n = x)

/-- R141: the two index functions as bit wiring, and the engine word address of the access. -/
def Obligations.IndexFunctionsAreBitWirings : Prop :=
  ∀ (n : BitVec 3) (i : Fin 16),
    BitVec.ofNat 7 (rowidx n i).val = n ++ BitVec.ofNat 4 i.val ∧
    BitVec.ofNat 7 (colidx n i).val = BitVec.ofNat 3 (i.val / 2) ++ (n ++ BitVec.ofNat 1 (i.val % 2)) ∧
    zAddr (rowidx n i) = 0x100 + (rowidx n i).val ∧ zAddr (colidx n i) = 0x100 + (colidx n i).val

/-- R142: each mode's eight groups partition 0..127, and window `k` and column `c` share exactly `16k + 2c` and `16k + 2c + 1`. -/
def Obligations.GroupsPartitionTheBlock : Prop :=
  Function.Bijective (fun p : BitVec 3 × Fin 16 => rowidx p.1 p.2) ∧
  Function.Bijective (fun p : BitVec 3 × Fin 16 => colidx p.1 p.2) ∧
  ∀ (k c : BitVec 3) (j : Fin 128),
    ((∃ i, rowidx k i = j) ∧ (∃ i, colidx c i = j)) ↔
      (j.val = 16 * k.toNat + 2 * c.toNat ∨ j.val = 16 * k.toNat + 2 * c.toNat + 1)

/-- R122 with the closed form of R120: the wiring of `w`, and each half names each register exactly once. -/
def Obligations.WiringsCoverTheRegistersTwice : Prop :=
  (∀ w : BitVec 3,
    (wire w).a.val = w.toNat % 4 ∧
    (wire w).b.val = 4 + (w.toNat % 4 + w.toNat / 4) % 4 ∧
    (wire w).c.val = 8 + (w.toNat % 4 + 2 * (w.toNat / 4)) % 4 ∧
    (wire w).d.val = 12 + (w.toNat % 4 + 3 * (w.toNat / 4)) % 4) ∧
  ∀ (i : Fin 16) (half : List (BitVec 3)), half = [0, 1, 2, 3] ∨ half = [4, 5, 6, 7] →
    (half.flatMap fun w => [(wire w).a, (wire w).b, (wire w).c, (wire w).d]).count i = 1

/-! ## Gfn, Pfn, perm, compress -/

/-- R108: the eight lines of Gfn (steps S1 to S8). R112: Gfn of four zeros is four zeros, and GfnInv is its inverse on both sides. -/
def Obligations.MixingIsABijection : Prop :=
  (∀ x0 x1 x2 x3 : Word,
    let x0' := add64 x0 x1
    let x3' := rotr64 (xor64 x3 x0') 32
    let x2' := add64 x2 x3'
    let x1' := rotr64 (xor64 x1 x2') 24
    let x0'' := add64 x0' x1'
    let x3'' := rotr64 (xor64 x3' x0'') 16
    let x2'' := add64 x2' x3''
    let x1'' := rotr64 (xor64 x1' x2'') 63
    gfn ⟨x0, x1, x2, x3⟩ = ⟨x0'', x1'', x2'', x3''⟩) ∧
  gfn ⟨0, 0, 0, 0⟩ = ⟨0, 0, 0, 0⟩ ∧ ∀ q : Quad, gfnInv (gfn q) = q ∧ gfn (gfnInv q) = q

/-- R125: Pfn runs the wirings 0 to 7 in this order, each on the four words it names; Pfn of sixteen zero words is sixteen zero words; and Pfn is
a bijection. -/
def Obligations.RoundFunctionIsABijection : Prop :=
  (∀ v, pfn v = [0, 1, 2, 3, 4, 5, 6, 7].foldl gAt v) ∧
  (∀ (v : Vector Word 16) (w : BitVec 3), getQuad (gAt v w) (wire w) = gfn (getQuad v (wire w)) ∧
    ∀ i : Fin 16, i ≠ (wire w).a → i ≠ (wire w).b → i ≠ (wire w).c → i ≠ (wire w).d → (gAt v w)[i] = v[i]) ∧
  pfn (Vector.replicate 16 0) = Vector.replicate 16 0 ∧ Function.Bijective pfn

/-- From R124: the four G's of a half in any order leave the same registers. -/
def Obligations.OrderInsideAHalfIsFree : Prop :=
  ∀ (v : Vector Word 16) (order : List (BitVec 3)),
    (order.Perm [0, 1, 2, 3] → order.foldl gAt v = [0, 1, 2, 3].foldl gAt v) ∧
    (order.Perm [4, 5, 6, 7] → order.foldl gAt v = [4, 5, 6, 7].foldl gAt v)

/-- R63: reordering the eight group computations inside a pass does not change the result. -/
def Obligations.OrderOfGroupsInsideAPassIsFree : Prop :=
  ∀ (z : Block) (order : List (BitVec 3)), order.Perm groups →
    rowPass order z = rowPass groups z ∧ colPass order z = colPass groups z

/-- R171: perm runs the windows 0 to 7 and then the columns 0 to 7, each a gather, Pfn and a scatter; perm of 128 zero words is 128 zero words; and
perm is a bijection. -/
def Obligations.TwoPassesAreABijection : Prop :=
  (∀ r, perm r = [0, 1, 2, 3, 4, 5, 6, 7].foldl colRound ([0, 1, 2, 3, 4, 5, 6, 7].foldl rowRound r)) ∧
  (∀ (z : Block) (n : BitVec 3),
    (∀ i : Fin 16, (rowRound z n)[rowidx n i] = (pfn (Vector.ofFn fun i => z[rowidx n i]))[i]) ∧
    (∀ j : Fin 128, (∀ i, rowidx n i ≠ j) → (rowRound z n)[j] = z[j]) ∧
    (∀ i : Fin 16, (colRound z n)[colidx n i] = (pfn (Vector.ofFn fun i => z[colidx n i]))[i]) ∧
    (∀ j : Fin 128, (∀ i, colidx n i ≠ j) → (colRound z n)[j] = z[j])) ∧
  perm (Vector.replicate 128 0) = Vector.replicate 128 0 ∧ Function.Bijective perm

/-- R170: the four steps of compress; it is symmetric; and compress(a, a) is 128 zero words. -/
def Obligations.CompressIsSymmetricAndZeroOnEqualBlocks : Prop :=
  ∀ a b : Block,
    (∀ r : Block, (∀ i : Fin 128, r[i] = xor64 a[i] b[i]) →
      ∀ i : Fin 128, (compress a b)[i] = xor64 (xor64 (perm r)[i] a[i]) b[i]) ∧
    compress a b = compress b a ∧ compress a a = Vector.replicate 128 0

/-- R163: the fold identity. -/
def Obligations.FoldIdentity : Prop :=
  ∀ (a b : Block) (i : Fin 128),
    xor64 (xor64 (compress a b)[i] a[i]) b[i] = (perm (xorBlock a b))[i]

/-! ## The micro-ops -/

/-- R110: `G w` on four registers that hold words. What the model does with a register that holds none is its own choice (log 1), stated in
`UnspecifiedReadsRunOnFreeValues`. -/
def Obligations.GMixesItsFourRegisters : Prop :=
  ∀ (w : BitVec 3) (s : State) (q : Quad),
    s.v[(wire w).a] = .word q.a → s.v[(wire w).b] = .word q.b → s.v[(wire w).c] = .word q.c → s.v[(wire w).d] = .word q.d →
    ∃ t, exec (.g w) s = .next t ∧
      t.v[(wire w).a] = .word (gfn q).a ∧ t.v[(wire w).b] = .word (gfn q).b ∧
      t.v[(wire w).c] = .word (gfn q).c ∧ t.v[(wire w).d] = .word (gfn q).d ∧
      (∀ i : Fin 16, i ≠ (wire w).a → i ≠ (wire w).b → i ≠ (wire w).c → i ≠ (wire w).d → t.v[i] = s.v[i]) ∧
      t.upc = s.upc + 1 ∧ (∀ a, t.cellAt a = s.cellAt a) ∧
      t = { s with v := t.v, upc := s.upc + 1 }

/-- R126: executing the eight micro-ops of P leaves Pfn(V), advances `upc` by 8, and changes nothing else. -/
def Obligations.PseudoPAppliesPfn : Prop :=
  (expandPseudo .p).map encode = [0x40, 0x41, 0x42, 0x43, 0x44, 0x45, 0x46, 0x47].map Encoded.uw8 ∧
  ∀ (s : State) (v : Vector Word 16), s.v = wordsV v →
    execAll (expandPseudo .p) s = .next { s with v := wordsV (pfn v), upc := s.upc + 8 }

/-- R143 and R144: `LDROW n` and `LDCOL n` on a group of words of `Z`. -/
def Obligations.LoadsGatherTheirGroup : Prop :=
  ∀ (n : BitVec 3) (s : State) (x : Vector Word 16),
    ((∀ i : Fin 16, s.cellAt (zAddr (rowidx n i)) = .word x[i]) →
      ∃ t, exec (.ldrow n) s = .next t ∧ (∀ i : Fin 16, t.v[i] = .word x[i]) ∧ (∀ a, t.cellAt a = s.cellAt a) ∧
        t = { s with v := t.v, upc := s.upc + 1 }) ∧
    ((∀ i : Fin 16, s.cellAt (zAddr (colidx n i)) = .word x[i]) →
      ∃ t, exec (.ldcol n) s = .next t ∧ (∀ i : Fin 16, t.v[i] = .word x[i]) ∧ (∀ a, t.cellAt a = s.cellAt a) ∧
        t = { s with v := t.v, upc := s.upc + 1 })

/-- R145 and R146: `STROW n` and `STCOL n` on sixteen registers that hold words; the other words of the engine data space are unchanged. -/
def Obligations.StoresScatterTheirGroup : Prop :=
  ∀ (n : BitVec 3) (s : State) (x : Vector Word 16), s.v = wordsV x →
    (∃ t, exec (.strow n) s = .next t ∧ (∀ i : Fin 16, t.cellAt (zAddr (rowidx n i)) = .word x[i]) ∧
      (∀ a, (∀ i : Fin 16, a ≠ zAddr (rowidx n i)) → t.cellAt a = s.cellAt a) ∧
      t = { s with mem := t.mem, upc := s.upc + 1 }) ∧
    (∃ t, exec (.stcol n) s = .next t ∧ (∀ i : Fin 16, t.cellAt (zAddr (colidx n i)) = .word x[i]) ∧
      (∀ a, (∀ i : Fin 16, a ≠ zAddr (colidx n i)) → t.cellAt a = s.cellAt a) ∧
      t = { s with mem := t.mem, upc := s.upc + 1 })

/-- R148: a load followed at once by the store of the same group leaves `Z` unchanged (whose sixteen words have values). -/
def Obligations.LoadThenStoreLeavesZ : Prop :=
  ∀ (n : BitVec 3) (s : State),
    ((∀ i : Fin 16, (s.cellAt (zAddr (rowidx n i))).specified = true) →
      ∃ t, execAll [.ldrow n, .strow n] s = .next t ∧ ∀ j, t.cellAt (zAddr j) = s.cellAt (zAddr j)) ∧
    ((∀ i : Fin 16, (s.cellAt (zAddr (colidx n i))).specified = true) →
      ∃ t, execAll [.ldcol n, .stcol n] s = .next t ∧ ∀ j, t.cellAt (zAddr j) = s.cellAt (zAddr j))

/-- R160: `XORIN` on two blocks of words. What the model does with an input word that has no value is its own choice (log 1), stated in
`UnspecifiedReadsRunOnFreeValues`. -/
def Obligations.XorinBuildsTheWorkingBlock : Prop :=
  ∀ (s : State) (a b : Block), s.holds aAddr a → s.holds bAddr b →
    ∃ t, exec .xorin s = .next t ∧ (∀ i : Fin 128, t.cellAt (zAddr i) = .word (xor64 a[i] b[i])) ∧
      (∀ x, (∀ i, x ≠ zAddr i) → t.cellAt x = s.cellAt x) ∧
      t = { s with mem := t.mem, upc := s.upc + 1 }

/-- R161: `FOLD` on three blocks of words. -/
def Obligations.FoldXorsBothInputsIntoZ : Prop :=
  ∀ (s : State) (a b z : Block), s.holds aAddr a → s.holds bAddr b → s.holds zAddr z →
    ∃ t, exec .fold s = .next t ∧ (∀ i : Fin 128, t.cellAt (zAddr i) = .word (xor64 (xor64 z[i] a[i]) b[i])) ∧
      (∀ x, (∀ i, x ≠ zAddr i) → t.cellAt x = s.cellAt x) ∧
      t = { s with mem := t.mem, upc := s.upc + 1 }

/-- R174: `BAR` always completes and only advances `upc`. -/
def Obligations.BarOnlyAdvances : Prop :=
  ∀ s : State, exec .bar s = .next { s with upc := s.upc + 1 }

/-- R175: `DONE` enters the phase DONE with `upc` = 0; STATUS then reads 2, the output `done` is high, the sequencer has no further step,
and everything else is unchanged. -/
def Obligations.DoneEndsTheOperation : Prop :=
  ∀ s : State, ∃ t, exec .done s = .next t ∧ t = { s with phase := .done, upc := 0 } ∧
    statusWord t = 2 ∧ doneOut t = true ∧ (∀ a, t.cellAt a = s.cellAt a) ∧
    (t.events = [] → step t = .next t)

/-- The MODEL's choice (log 1), no rule of the spec: a micro-op that reads unspecified storage runs on with free values in the place of the words
it has no value for, records R13's fault of the model (in place of the stop that R13, R110 and R160 name), and has every other effect of its rule. -/
def Obligations.UnspecifiedReadsRunOnFreeValues : Prop :=
  ∀ s : State,
    (∀ w, ∃ t, exec (.g w) s = .next t ∧ t.upc = s.upc + 1 ∧
      t.v = writeQuad s.v (wire w) (gfn (readQuad s (wire w))) ∧
      t.modelFault = (s.modelFault || !s.vSpecified [(wire w).a, (wire w).b, (wire w).c, (wire w).d])) ∧
    (∀ n, ∃ t, exec (.ldrow n) s = .next t ∧ t.upc = s.upc + 1 ∧
      (∀ i : Fin 16, t.v[i] = .word (s.readMem (zAddr (rowidx n i)))) ∧
      t.modelFault = (s.modelFault || !s.memSpecified (groupAddrs (rowidx n)))) ∧
    (∀ n, ∃ t, exec (.ldcol n) s = .next t ∧ t.upc = s.upc + 1 ∧
      (∀ i : Fin 16, t.v[i] = .word (s.readMem (zAddr (colidx n i)))) ∧
      t.modelFault = (s.modelFault || !s.memSpecified (groupAddrs (colidx n)))) ∧
    (∀ n, ∃ t, exec (.strow n) s = .next t ∧ t.upc = s.upc + 1 ∧
      (∀ i : Fin 16, t.cellAt (zAddr (rowidx n i)) = .word (s.readV i)) ∧
      t.modelFault = (s.modelFault || !s.vSpecified (List.finRange 16))) ∧
    (∀ n, ∃ t, exec (.stcol n) s = .next t ∧ t.upc = s.upc + 1 ∧
      (∀ i : Fin 16, t.cellAt (zAddr (colidx n i)) = .word (s.readV i)) ∧
      t.modelFault = (s.modelFault || !s.vSpecified (List.finRange 16))) ∧
    (∃ t, exec .xorin s = .next t ∧ t.upc = s.upc + 1 ∧
      (∀ i, t.cellAt (zAddr i) = .word (xor64 (s.readMem (aAddr i)) (s.readMem (bAddr i)))) ∧
      t.modelFault = (s.modelFault || !inputsSpecified s)) ∧
    (∃ t, exec .fold s = .next t ∧ t.upc = s.upc + 1 ∧
      (∀ i, t.cellAt (zAddr i) =
        .word (xor64 (xor64 (s.readMem (zAddr i)) (s.readMem (aAddr i))) (s.readMem (bAddr i)))) ∧
      t.modelFault = (s.modelFault || !(s.memSpecified (bufferAddrs zAddr) && inputsSpecified s))) ∧
    (∀ (w : BitVec 3) (i : Fin 16), i = (wire w).a ∨ i = (wire w).b ∨ i = (wire w).c ∨ i = (wire w).d → s.v[i] = .unspecified →
      ∃ t, exec (.g w) s = .next t ∧ t.modelFault = true) ∧
    (∀ i : Fin 128, s.cellAt (aAddr i) = .unspecified ∨ s.cellAt (bAddr i) = .unspecified →
      ∃ t, exec .xorin s = .next t ∧ t.modelFault = true)

/-! ## Whole-machine rules about the micro-ops -/

/-- R24: every micro-op but `DONE` ends with `upc + 1`, `DONE` with 0, an accepted `START` sets 0, a fault leaves `upc` unchanged, and an engine step
that finds `upc > 163` raises `Fault(UOP, 0)`. -/
def Obligations.UpcAdvancesByOneOrRestarts : Prop :=
  (∀ (i : Instr) (s : State), isMicroOp i = true → i ≠ .done → ∃ t, exec i s = .next t ∧ t.upc = s.upc + 1) ∧
  (∀ s : State, ∃ t, exec .done s = .next t ∧ t.upc = 0) ∧
  (∀ s t : State, exec .start s = .next t → s.phase ≠ .busy → t.phase = .busy → t.upc = 0) ∧
  (∀ (code : FaultCode) (addr : HostAddr) (s : State), (raiseFault code addr s).upc = s.upc) ∧
  (∀ s : State, s.urom = uromWords → s.phase = .busy → 163 < s.upc.toNat → engineStep s = .next (raiseFault .uop 0 s))

/-- From R34, R35 and R40: no micro-op writes `A`, `B` or a written-bit; and no micro-op writes ERRINFO, the micro-program, the pending turns or the
replies. -/
def Obligations.MicroOpsKeepTheInputs : Prop :=
  ∀ (i : Instr) (s t : State), isMicroOp i = true → exec i s = .next t →
    (∀ j, t.cellAt (aAddr j) = s.cellAt (aAddr j) ∧ t.cellAt (bAddr j) = s.cellAt (bAddr j)) ∧
    t.wa = s.wa ∧ t.wb = s.wb ∧ t.errinfo = s.errinfo ∧ t.urom = s.urom ∧ t.events = s.events ∧ t.replies = s.replies

/-! ## Host commands -/

/-- R176: `NOP` has no effect in any phase. -/
def Obligations.NopHasNoEffect : Prop :=
  ∀ s : State, exec .nop s = .next s

/-- R177: `START` in its three cases; in FAULT it has no effect (R179). That an accepted `START` leaves `V` unspecified is R22. -/
def Obligations.StartBeginsOnlyACompleteOperation : Prop :=
  ∀ s : State,
    (s.phase = .idle → s.wa = allWritten → s.wb = allWritten →
      exec .start s = .next { s with v := unspecifiedV, phase := .busy, upc := 0 }) ∧
    (s.phase = .idle → (s.wa ≠ allWritten ∨ s.wb ≠ allWritten) → exec .start s = .next (raiseFault .precond 0x180 s)) ∧
    (s.phase = .busy ∨ s.phase = .done → exec .start s = .next (raiseFault .cmd 0x180 s)) ∧
    (s.phase = .fault → exec .start s = .next s)

/-- R178: `CLR` in IDLE and DONE, in BUSY, and in FAULT. -/
def Obligations.ClrGivesUpTheBlocks : Prop :=
  ∀ s : State,
    (s.phase = .idle ∨ s.phase = .done →
      ∃ t, exec .clr s = .next t ∧ t.phase = .idle ∧ t.upc = 0 ∧ t.wa = 0 ∧ t.wb = 0 ∧
        (∀ a, t.cellAt a = .unspecified) ∧ (∀ i : Fin 16, t.v[i] = .unspecified) ∧
        t = { s with v := t.v, mem := t.mem, phase := .idle, upc := 0, wa := 0, wb := 0 }) ∧
    (s.phase = .busy → exec .clr s = .next (raiseFault .cmd 0x180 s)) ∧
    (s.phase = .fault → exec .clr s = .next s)

/-- R179: a host write to CTRL, in every phase. -/
def Obligations.ControlWriteIsACommand : Prop :=
  ∀ (s : State) (d : Word) (rest : List Event), s.events = .port (.write 0x180 d) :: rest →
    let s' := { s with events := rest }
    (s.phase = .fault → step s = .next s') ∧
    (s.phase ≠ .fault → d.extractLsb' 2 62 ≠ 0 ∨ d.extractLsb' 0 2 = 3 → step s = .next (raiseFault .cmd 0x180 s')) ∧
    (s.phase ≠ .fault → d.extractLsb' 2 62 = 0 → d.extractLsb' 0 2 = 0 → step s = exec .nop s') ∧
    (s.phase ≠ .fault → d.extractLsb' 2 62 = 0 → d.extractLsb' 0 2 = 1 → step s = exec .start s') ∧
    (s.phase ≠ .fault → d.extractLsb' 2 62 = 0 → d.extractLsb' 0 2 = 2 → step s = exec .clr s')

/-! ## The host port -/

/-- R68: a host write at every address, in every phase: a word stored with its written-bit and nothing else changed, a command (R179),
`Fault(ACCESS, addr)`, or no effect in FAULT. -/
def Obligations.HostWriteStoresOrFaults : Prop :=
  ∀ (s : State) (addr : HostAddr) (d : Word) (rest : List Event), s.events = .port (.write addr d) :: rest →
    let s' := { s with events := rest }
    (s.phase = .fault → step s = .next s') ∧
    (s.phase = .idle → addr.toNat < 0x080 →
      ∃ t, step s = .next t ∧ t.cellAt addr.toNat = .word d ∧ (∀ a, a ≠ addr.toNat → t.cellAt a = s.cellAt a) ∧
        (∀ j : Fin 128, t.wa.getLsbD j = (s.wa.getLsbD j || j.val == addr.toNat)) ∧
        t = { s' with mem := t.mem, wa := t.wa }) ∧
    (s.phase = .idle → 0x080 ≤ addr.toNat → addr.toNat < 0x100 →
      ∃ t, step s = .next t ∧ t.cellAt addr.toNat = .word d ∧ (∀ a, a ≠ addr.toNat → t.cellAt a = s.cellAt a) ∧
        (∀ j : Fin 128, t.wb.getLsbD j = (s.wb.getLsbD j || j.val + 0x080 == addr.toNat)) ∧
        t = { s' with mem := t.mem, wb := t.wb }) ∧
    (s.phase = .busy ∨ s.phase = .done → addr.toNat < 0x100 → step s = .next (raiseFault .access addr s')) ∧
    (s.phase ≠ .fault → addr = 0x180 → step s = command d s') ∧
    (s.phase ≠ .fault → 0x100 ≤ addr.toNat → addr ≠ 0x180 → step s = .next (raiseFault .access addr s'))

/-- R69: a host read at every address, in every phase. The word that a refused read or a read in FAULT returns is unspecified, so only that some word
is returned is said of it; of the model's counter of free values nothing is said. -/
def Obligations.HostReadReturnsOrFaults : Prop :=
  ∀ (s : State) (addr : HostAddr) (rest : List Event), s.events = .port (.read addr) :: rest →
    let s' := { s with events := rest }
    (addr = 0x180 → step s = .next (s'.reply (.word 0))) ∧
    (addr = 0x181 → step s = .next (s'.reply (.word (statusWord s)))) ∧
    (addr = 0x182 → step s = .next (s'.reply (.word s.errinfo))) ∧
    (s.phase = .fault → addr ≠ 0x180 → addr ≠ 0x181 → addr ≠ 0x182 →
      ∃ w k, step s = .next { s'.reply (.word w) with draws := k }) ∧
    (s.phase = .done → 0x100 ≤ addr.toNat → addr.toNat < 0x180 → ∀ w, s.cellAt addr.toNat = .word w →
      step s = .next (s'.reply (.word w))) ∧
    (s.phase ≠ .fault → addr.toNat < 0x100 ∨ 0x182 < addr.toNat ∨ (addr.toNat < 0x180 ∧ s.phase ≠ .done) →
      ∃ w k, step s = .next { (raiseFault .access addr s').reply (.word w) with draws := k })

/-- R29 (and the level outputs of R210): STATUS reads 0, 1, 2, 4 in IDLE, BUSY, DONE, FAULT, its three bits are the level outputs, a read changes
nothing, and it is 0 after reset. -/
def Obligations.StatusIsAViewOfThePhase : Prop :=
  statusWord State.reset = 0 ∧
  ∀ s : State,
    (∀ rest, s.events = .port (.read 0x181) :: rest →
      step s = .next { s with events := rest, replies := .word (statusWord s) :: s.replies }) ∧
    (∀ d rest, s.events = .port (.write 0x181 d) :: rest → s.phase ≠ .fault →
      step s = .next (raiseFault .access 0x181 { s with events := rest })) ∧
    statusWord s = (match s.phase with | .idle => 0 | .busy => 1 | .done => 2 | .fault => 4) ∧
    (statusWord s).getLsbD 0 = busyOut s ∧ (statusWord s).getLsbD 1 = doneOut s ∧ (statusWord s).getLsbD 2 = errOut s ∧
    (busyOut s = true ↔ s.phase = .busy) ∧ (doneOut s = true ↔ s.phase = .done) ∧ (errOut s = true ↔ s.phase = .fault)

/-- The layout of ERRINFO of R30: the three fields stand at their bits and the reserved bits are zero. -/
def Obligations.ErrinfoFieldsStandAtTheirBits : Prop :=
  ∀ (code : BitVec 4) (upc : BitVec 8) (addr : HostAddr),
    errinfoCode (errinfoWord code upc addr) = code ∧ errinfoUpc (errinfoWord code upc addr) = upc ∧
    errinfoAddr (errinfoWord code upc addr) = addr ∧
    (errinfoWord code upc addr).extractLsb' 4 4 = 0 ∧ (errinfoWord code upc addr).extractLsb' 25 39 = 0

/-- R53 with the byte order of R50: a word as bytes has its least significant byte first; an aligned access of exactly 8 bytes at `BASE + 8 * addr` is the port
transaction at `addr`; and every narrower, wider or misaligned access is refused. -/
def Obligations.BusAdapterForwardsAlignedWords : Prop :=
  Config.base % 4096 = 0 ∧
  (∀ w : Word, (wordBytes w).length = 8 ∧ ∀ k < 8, (wordBytes w)[k]? = some (w.extractLsb' (8 * k) 8)) ∧
  (∀ (addr : HostAddr) (w : Word), adapt (.write (Config.base + 8 * addr.toNat) (wordBytes w)) = some (.write addr w)) ∧
  (∀ addr : HostAddr, adapt (.read (Config.base + 8 * addr.toNat) 8) = some (.read addr)) ∧
  (∀ (s : State) (byteAddr size : Nat) (rest : List Event), s.events = .bus (.read byteAddr size) :: rest →
    size ≠ 8 ∨ byteAddr % 8 ≠ 0 → step s = .refused .busAccess) ∧
  (∀ (s : State) (byteAddr : Nat) (bytes : List Byte) (rest : List Event), s.events = .bus (.write byteAddr bytes) :: rest →
    bytes.length ≠ 8 ∨ byteAddr % 8 ≠ 0 → step s = .refused .busAccess)

/-- From R53, R68, R69: a bus write at `BASE + 8 * addr` does what the port write does, and a bus read gives back the bytes of the port's word. -/
def Obligations.BusTransactionsActAsPortTransactions : Prop :=
  ∀ (s : State) (addr : HostAddr) (w : Word) (rest : List Event),
    step { s with events := .bus (.write (Config.base + 8 * addr.toNat) (wordBytes w)) :: rest } =
      step { s with events := .port (.write addr w) :: rest } ∧
    ∃ (t : State) (r : Word), step { s with events := .port (.read addr) :: rest } = .next (t.reply (.word r)) ∧
      step { s with events := .bus (.read (Config.base + 8 * addr.toNat) 8) :: rest } = .next (t.reply (.bytes (wordBytes r)))

/-- From R180 and R185, between steps 3 and 4: in BUSY a `NOP` and the reads of CTRL, STATUS and ERRINFO, at the port or over the bus, change nothing
but the record of what was read. -/
def Obligations.HarmlessTurnsLeaveTheRunAlone : Prop :=
  ∀ (s : State) (e : Event) (rest : List Event), s.phase = .busy → s.events = e :: rest → harmless e = true → e ≠ .engine →
    ∃ t, step s = .next t ∧ t = { s with events := rest, replies := t.replies }

/-! ## Faults and reset -/

/-- R204: fault entry. Nothing is said of the written-bits, which become unspecified. -/
def Obligations.FaultEntryRecordsAndDropsTheData : Prop :=
  ∀ (code : FaultCode) (addr : HostAddr) (s : State),
    (s.phase = .fault → raiseFault code addr s = s) ∧
    (s.phase ≠ .fault →
      errinfoCode (raiseFault code addr s).errinfo = faultCodeBits code ∧
      errinfoUpc (raiseFault code addr s).errinfo = s.upc ∧
      errinfoAddr (raiseFault code addr s).errinfo = addr ∧
      (raiseFault code addr s).phase = .fault ∧ statusWord (raiseFault code addr s) = 4 ∧
      errOut (raiseFault code addr s) = true ∧
      (∀ a, (raiseFault code addr s).cellAt a = .unspecified) ∧
      (∀ i : Fin 16, (raiseFault code addr s).v[i] = .unspecified) ∧
      (raiseFault code addr s).upc = s.upc ∧
      (raiseFault code addr s).events = s.events ∧ (raiseFault code addr s).urom = s.urom)

/-- From R206, the order of the checks of a host write, in a phase other than FAULT. A write that the address and direction check refuses (any address
from 0x100 on but CTRL; in BUSY and DONE any word of `A` or `B`) reports ACCESS whatever the data is; an illegal command word reports CMD in every
such phase; a `START` in BUSY or DONE reports CMD whatever the written-bits are, and so does a `CLR` in BUSY; PRECOND is reported in IDLE only. -/
def Obligations.ChecksAreMadeInOrder : Prop :=
  ∀ (s : State) (addr : HostAddr) (d : Word) (rest : List Event), s.events = .port (.write addr d) :: rest → s.phase ≠ .fault →
    ∃ t, step s = .next t ∧
    (0x100 ≤ addr.toNat → addr ≠ 0x180 → errinfoCode t.errinfo = 3 ∧ errinfoAddr t.errinfo = addr) ∧
    (addr.toNat < 0x100 → s.phase ≠ .idle → errinfoCode t.errinfo = 3 ∧ errinfoAddr t.errinfo = addr) ∧
    (addr = 0x180 → d.extractLsb' 2 62 ≠ 0 ∨ d.extractLsb' 0 2 = 3 → errinfoCode t.errinfo = 2 ∧ errinfoAddr t.errinfo = 0x180) ∧
    (addr = 0x180 → d = 1 → s.phase ≠ .idle → errinfoCode t.errinfo = 2 ∧ errinfoAddr t.errinfo = 0x180) ∧
    (addr = 0x180 → d = 2 → s.phase = .busy → errinfoCode t.errinfo = 2 ∧ errinfoAddr t.errinfo = 0x180) ∧
    (addr = 0x180 → d = 1 → s.phase = .idle → ¬ (s.wa = allWritten ∧ s.wb = allWritten) →
      errinfoCode t.errinfo = 1 ∧ errinfoAddr t.errinfo = 0x180)

/-- R207: in FAULT no turn but reset changes anything of the engine; writes and engine turns do nothing, register reads work, other reads return some
word. -/
def Obligations.FaultsAreSticky : Prop :=
  ∀ (s : State) (e : Event) (rest : List Event), s.phase = .fault → s.events = e :: rest → e ≠ .reset →
    (∀ t, step s = .next t → t = { s with events := rest, replies := t.replies, draws := t.draws }) ∧
    (e = .engine ∨ (∃ addr d, e = .port (.write addr d)) → step s = .next { s with events := rest }) ∧
    (e = .port (.read 0x180) → step s = .next { s with events := rest, replies := .word 0 :: s.replies }) ∧
    (e = .port (.read 0x181) → step s = .next { s with events := rest, replies := .word 4 :: s.replies }) ∧
    (e = .port (.read 0x182) → step s = .next { s with events := rest, replies := .word s.errinfo :: s.replies }) ∧
    (∀ addr, e = .port (.read addr) → ∃ t w, step s = .next t ∧ t.replies = .word w :: s.replies)

/-- R208: only the reset event leaves FAULT, and it loses every block. -/
def Obligations.OnlyResetLeavesFault : Prop :=
  ∀ s t : State, s.phase = .fault → step s = .next t → t.phase ≠ .fault →
    (∃ rest, s.events = .reset :: rest) ∧ ∀ a, t.cellAt a = .unspecified

/-- R42: the state after reset, in which nothing executes. -/
def Obligations.ResetStateIsAsListed : Prop :=
  State.reset.phase = .idle ∧ State.reset.upc = 0 ∧ statusWord State.reset = 0 ∧ State.reset.errinfo = 0 ∧
  State.reset.wa = 0 ∧ State.reset.wb = 0 ∧ (∀ i : Fin 16, State.reset.v[i] = .unspecified) ∧
  (∀ a, State.reset.cellAt a = .unspecified) ∧ ctrlWord = 0 ∧ State.reset.urom = uromWords ∧
  step State.reset = .next State.reset

/-- R230: the reset event, in any phase, puts the engine in the state of R42; the micro-program is unchanged. -/
def Obligations.ResetEventRestoresTheResetState : Prop :=
  ∀ (s : State) (rest : List Event), s.events = .reset :: rest →
    ∃ t, step s = .next t ∧ t.phase = .idle ∧ t.upc = 0 ∧ t.errinfo = 0 ∧ t.wa = 0 ∧ t.wb = 0 ∧
      t.v = State.reset.v ∧ t.mem = State.reset.mem ∧ statusWord t = 0 ∧
      t.urom = s.urom ∧ t.events = rest

/-! ## The sequencer and the step -/

/-- R173: the sequencer has a step exactly when `PHASE = BUSY`, that step is: range check, fetch from UROM, decode check, execute, and it is
always enabled. -/
def Obligations.SequencerStepsOnlyWhenBusy : Prop :=
  ∀ s : State, s.urom = uromWords →
    (s.phase = .busy → ∃ t, sequencerTurn s = .next t) ∧
    (s.phase ≠ .busy → sequencerTurn s = .next s) ∧
    (s.phase = .busy → 163 < s.upc.toNat → sequencerTurn s = .next (raiseFault .uop 0 s)) ∧
    (s.phase = .busy → s.upc.toNat ≤ 163 → ∃ u, uromWords[s.upc.toNat]? = some u ∧
      (∀ i, decodeUop u = .ok i → sequencerTurn s = exec i s) ∧
      (∀ why, decodeUop u = .error why → sequencerTurn s = .next (raiseFault .uop 0 s)))

/-- A step runs the decoded instruction. With no turn pending a step is the sequencer's turn (the MODEL's form of the weak fairness of R173, log 4).
In BUSY, with the sequencer's turn next (or no turn pending) and a word at `upc` that decodes to `i`, the step is `exec i` of the state less that
turn. Outside FAULT, with a host write to CTRL next whose word decodes to `i`, likewise. -/
def Obligations.StepRunsTheDecodedInstruction : Prop :=
  (∀ s : State, s.events = [] → step s = sequencerTurn s) ∧
  (∀ (s : State) (u : MicroWord) (i : Instr), s.phase = .busy → s.urom[s.upc.toNat]? = some u → decodeUop u = .ok i →
    (s.events = [] → step s = exec i s) ∧
    (∀ rest, s.events = .engine :: rest → step s = exec i { s with events := rest })) ∧
  (∀ (s : State) (d : Word) (i : Instr) (rest : List Event), s.phase ≠ .fault → s.events = .port (.write 0x180 d) :: rest →
    decodeCommand d = .ok i → step s = exec i { s with events := rest })

/-- R25: the encoding of PHASE and its only transitions. A turn of the bus counts as the port transaction it is (R53). -/
def Obligations.PhaseChangesOnlyAsListed : Prop :=
  (phaseBits .idle = 0 ∧ phaseBits .busy = 1 ∧ phaseBits .done = 2 ∧ phaseBits .fault = 3) ∧
  ∀ s t : State, step s = .next t →
    (t.phase = .fault → s.phase = .fault ∨ ∃ code addr, t.errinfo = errinfoWord (faultCodeBits code) s.upc addr) ∧
    (t.phase = .busy → s.phase = .busy ∨ s.phase = .idle ∧ ∃ e rest, s.events = e :: rest ∧
      (e = .port (.write 0x180 1) ∨ ∃ b, e = .bus b ∧ adapt b = some (.write 0x180 1))) ∧
    (t.phase = .done → s.phase = .done ∨ s.phase = .busy ∧ t.upc = 0 ∧ ∃ u, fetch s = some u ∧ decodeUop u = .ok .done) ∧
    (t.phase = .idle → s.phase = .idle ∨ (∃ rest, s.events = .reset :: rest) ∨ s.phase = .done ∧ ∃ e rest, s.events = e :: rest ∧
      (e = .port (.write 0x180 2) ∨ ∃ b, e = .bus b ∧ adapt b = some (.write 0x180 2)))

/-- R67: no step writes the micro-program. -/
def Obligations.MicroProgramIsNeverWritten : Prop :=
  ∀ s t : State, step s = .next t → t.urom = s.urom

/-- Every step keeps the invariant of the hardware's states (R22, R23, R30, R36, R37, R39, R58, R172, R177, R186, R204). -/
def Obligations.EveryStepKeepsTheInvariant : Prop :=
  ∀ s t : State, s.Inv → step s = .next t → t.Inv

/-- The invariant holds after reset. -/
def Obligations.InvariantHoldsAfterReset : Prop :=
  State.reset.Inv

/-! ## The run -/

/-- R181: from the state `START` leaves, in every run in which the host does only what R185 allows (so without a fault), after exactly 164 steps of
the sequencer the phase is DONE with `Z = compress(a, b)` and the inputs unchanged; the intermediate blocks are as listed. `n` counts the
sequencer's and the host's steps together. -/
def Obligations.RunComputesCompress : Prop :=
  ∀ (s : State) (a b : Block) (n : Nat), s.Started a b → s.undisturbed n →
    (engineTurns n s.events = 1 → ∃ t, runSteps n s = .next t ∧ t.holds zAddr (xorBlock a b)) ∧
    (engineTurns n s.events = 81 → ∃ t, runSteps n s = .next t ∧ t.holds zAddr (rowPass groups (xorBlock a b))) ∧
    (engineTurns n s.events = 162 → ∃ t, runSteps n s = .next t ∧ t.holds zAddr (perm (xorBlock a b))) ∧
    (engineTurns n s.events = 163 → ∃ t, runSteps n s = .next t ∧ t.holds zAddr (compress a b)) ∧
    (engineTurns n s.events = 164 → ∃ t, runSteps n s = .next t ∧ t.phase = .done ∧ t.upc = 0 ∧ t.holds zAddr (compress a b) ∧
      t.holds aAddr a ∧ t.holds bAddr b)

/-- R182: every operation takes exactly 164 steps of the sequencer, with the listed counts of micro-ops, whatever harmless turns the host takes
between them; and the `upc` sequence is the same for all data. -/
def Obligations.EveryOperationTakes164Steps : Prop :=
  (∀ (s : State) (a b : Block) (n : Nat), s.Started a b → s.undisturbed n →
    (engineTurns n s.events < 164 →
      ∃ t, runSteps n s = .next t ∧ t.phase = .busy ∧ t.upc = BitVec.ofNat 8 (engineTurns n s.events)) ∧
    (engineTurns n s.events = 164 → ∃ t, runSteps n s = .next t ∧ t.phase = .done)) ∧
  (uromWords.filter (· = 0x10)).length = 1 ∧ (uromWords.filter (fun u => u &&& 0xF8 = 0x20)).length = 8 ∧
  (uromWords.filter (fun u => u &&& 0xF8 = 0x50)).length = 8 ∧ (uromWords.filter (· = 0x70)).length = 1 ∧
  (uromWords.filter (fun u => u &&& 0xF8 = 0x30)).length = 8 ∧ (uromWords.filter (fun u => u &&& 0xF8 = 0x60)).length = 8 ∧
  (uromWords.filter (fun u => u &&& 0xF8 = 0x40)).length = 128 ∧ (uromWords.filter (· = 0x80)).length = 1 ∧
  (uromWords.filter (· = 0x90)).length = 1

/-- R186: no micro-op of an admitted run reads an unspecified value, whatever harmless turns the host takes. That such a read is recorded in
`modelFault` and counted in `draws`, where R186 speaks of a model that faults, is the model's form (log 1). -/
def Obligations.AdmittedRunReadsNoUnspecifiedValue : Prop :=
  ∀ (s : State) (a b : Block) (n : Nat), s.Started a b → s.undisturbed n → engineTurns n s.events ≤ 164 →
    ∃ t, runSteps n s = .next t ∧ t.modelFault = s.modelFault ∧ t.draws = s.draws

/-- R14: the value delivered depends on the two input blocks and on nothing else: two admitted runs that differ in everything else the
engine holds, and in the harmless turns the host takes, deliver the same block. -/
def Obligations.ResultDependsOnTheBlocksOnly : Prop :=
  ∀ (s s' : State) (a b : Block) (n n' : Nat), s.Started a b → s'.Started a b → s.undisturbed n → s'.undisturbed n' →
    engineTurns n s.events = 164 → engineTurns n' s'.events = 164 →
    ∃ t t', runSteps n s = .next t ∧ runSteps n' s' = .next t' ∧ t.phase = .done ∧ t'.phase = .done ∧
      ∀ j, t.cellAt (zAddr j) = t'.cellAt (zAddr j)

/-- The host's protocol for one call (R185, the turns in one order), from any IDLE state of the hardware: the 128 words read are compress(a, b),
and the engine is IDLE again. -/
def Obligations.ProtocolReturnsCompress : Prop :=
  ∀ (s : State) (a b : Block), s.Inv → s.phase = .idle → s.events = protocolTurns a b →
    ∃ t, runSteps (protocolTurns a b).length s = .next t ∧ t.phase = .idle ∧ t.events = [] ∧ t.wa = 0 ∧ t.wb = 0 ∧
      t.replies = ((List.finRange 128).map fun j => Reply.word (compress a b)[j]).reverse ++ s.replies

/-- R187: after `CLR` or reset nothing of an earlier call is left: the engine's own state is that of reset, up to the model's record of replies
and draws. -/
def Obligations.NothingIsCarriedToTheNextCall : Prop :=
  ∀ (s t : State) (rest : List Event), s.Inv →
    ((s.phase = .done ∨ s.phase = .idle) ∧ s.events = .port (.write 0x180 2) :: rest ∨ s.events = .reset :: rest) → step s = .next t →
    t = { State.reset with events := rest, replies := s.replies, draws := s.draws }

/-- R65: a step of one engine of a system changes no other engine. R214: it is that engine's own step, and it happens whenever that engine has one;
the engines start in the same reset state; and a second `START` before `CLR` is a fault. (That the model's counters of free values start alike
too is its own choice, log 12.) -/
def Obligations.EnginesShareNoState : Prop :=
  (∀ (sys sys' : System) (k : Nat), systemStep k sys = some sys' →
    sys'.length = sys.length ∧ (∀ j, j ≠ k → sys'[j]? = sys[j]?) ∧
    ∃ s t, sys[k]? = some s ∧ step s = .next t ∧ sys'[k]? = some t) ∧
  (∀ (sys : System) (k : Nat) (s t : State), sys[k]? = some s → step s = .next t → systemStep k sys = some (sys.set k t)) ∧
  (∀ (sys : System) (k : Nat) (s : State) (rest : List Event), sys[k]? = some s → s.phase = .busy ∨ s.phase = .done →
    s.events = .port (.write 0x180 1) :: rest → ∃ sys' t, systemStep k sys = some sys' ∧ sys'[k]? = some t ∧ t.phase = .fault) ∧
  ∀ n k, k < n → (systemReset n)[k]? = some State.reset
end

