-- ==== Sys2Proof/Laws/Memory.lean ====
section
/-! SUPPORT. The laws of the memory: a read after a write, the other addresses, the canonical form, and the equality of memories that read
alike. -/

namespace Sys2Proof.Machine

@[simp] theorem Memory.cell_nil (a : Nat) : Memory.cell [] a = .unspecified := rfl

/-- Reading after one write. -/
theorem Memory.cell_write (m : Memory) (a b : Nat) (w : Word) :
    (m.write a w).cell b = if b = a then .word w else m.cell b := by
  induction m with
  | nil => simp [Memory.write, Memory.cell]
  | cons p m ih =>
    obtain ⟨c, x⟩ := p
    simp only [Memory.write]
    split
    · simp [Memory.cell]
    · split
      · next h => subst h; simp only [Memory.cell]; split <;> rfl
      · next h1 h2 =>
        simp only [Memory.cell, ih]
        split
        · next h3 => rw [if_neg (by omega)]
        · rfl

@[simp] theorem Memory.cell_write_same (m : Memory) (a : Nat) (w : Word) : (m.write a w).cell a = .word w := by
  simp [Memory.cell_write]

theorem Memory.cell_write_other (m : Memory) {a b : Nat} (w : Word) (h : b ≠ a) : (m.write a w).cell b = m.cell b := by
  simp [Memory.cell_write, h]

theorem Memory.wf_cons {a : Nat} {x : Word} {m : Memory} :
    Memory.wf ((a, x) :: m) ↔ (∀ p ∈ m, a < p.1) ∧ m.wf := by
  simp [Memory.wf, List.pairwise_cons]

/-- The addresses a memory lists after a write: the old ones and the written one. -/
theorem Memory.mem_write {m : Memory} {a : Nat} {w : Word} {p : Nat × Word} (h : p ∈ m.write a w) :
    p = (a, w) ∨ p ∈ m := by
  induction m with
  | nil => simpa [Memory.write] using h
  | cons q m ih =>
    obtain ⟨c, x⟩ := q
    simp only [Memory.write] at h
    split at h
    · simpa using h
    · split at h
      · rcases List.mem_cons.1 h with h | h
        · exact .inl h
        · exact .inr (List.mem_cons_of_mem _ h)
      · rcases List.mem_cons.1 h with h | h
        · exact .inr (by simp [h])
        · rcases ih h with h | h
          · exact .inl h
          · exact .inr (List.mem_cons_of_mem _ h)

/-- A write keeps the canonical form. -/
theorem Memory.wf_write {m : Memory} (a : Nat) (w : Word) (h : m.wf) : (m.write a w).wf := by
  induction m with
  | nil => simp [Memory.write, Memory.wf]
  | cons q m ih =>
    obtain ⟨c, x⟩ := q
    obtain ⟨hlt, hm⟩ := Memory.wf_cons.1 h
    simp only [Memory.write]
    split
    · next hac =>
      refine Memory.wf_cons.2 ⟨?_, h⟩
      intro p hp
      rcases List.mem_cons.1 hp with rfl | hp
      · exact hac
      · exact lt_trans hac (hlt p hp)
    · split
      · next hac => exact Memory.wf_cons.2 ⟨hac ▸ hlt, hm⟩
      · next h1 h2 =>
        refine Memory.wf_cons.2 ⟨?_, ih hm⟩
        intro p hp
        rcases Memory.mem_write hp with rfl | hp
        · show c < a
          omega
        · exact hlt p hp

@[simp] theorem Memory.wf_nil : Memory.wf [] := List.Pairwise.nil

/-- The memory after reset has the canonical form. -/
theorem reset_mem_wf : State.reset.mem.wf := Memory.wf_nil

@[simp] theorem Memory.writeAll_nil (m : Memory) : m.writeAll [] = m := rfl

@[simp] theorem Memory.writeAll_cons (m : Memory) (p : Nat × Word) (ws : List (Nat × Word)) :
    m.writeAll (p :: ws) = (m.write p.1 p.2).writeAll ws := rfl

/-- Several writes keep the canonical form. -/
theorem Memory.wf_writeAll {m : Memory} (ws : List (Nat × Word)) (h : m.wf) : (m.writeAll ws).wf := by
  induction ws generalizing m with
  | nil => exact h
  | cons p ws ih => exact ih (Memory.wf_write _ _ h)

/-- What is listed after several writes was listed before or was written. -/
theorem Memory.mem_writeAll {m : Memory} {ws : List (Nat × Word)} {p : Nat × Word} (h : p ∈ m.writeAll ws) :
    p ∈ ws ∨ p ∈ m := by
  induction ws generalizing m with
  | nil => exact .inr h
  | cons q ws ih =>
    rcases ih h with h | h
    · exact .inl (List.mem_cons_of_mem _ h)
    · rcases Memory.mem_write h with h | h
      · exact .inl (by simp [h])
      · exact .inr h

/-- Several writes leave every other address alone. -/
theorem Memory.cell_writeAll_other {m : Memory} {ws : List (Nat × Word)} {b : Nat} (h : ∀ p ∈ ws, b ≠ p.1) :
    (m.writeAll ws).cell b = m.cell b := by
  induction ws generalizing m with
  | nil => rfl
  | cons q ws ih =>
    rw [Memory.writeAll_cons, ih fun p hp => h p (List.mem_cons_of_mem _ hp),
      Memory.cell_write_other _ _ (h q (by simp))]

/-- Several writes through an injective address function: each address then holds its word. -/
theorem Memory.cell_writeAll_map {n : Nat} (m : Memory) (addr : Fin n → Nat) (w : Fin n → Word) (hinj : Function.Injective addr)
    (l : List (Fin n)) (hl : l.Nodup) {i : Fin n} (hi : i ∈ l) :
    (m.writeAll (l.map fun j => (addr j, w j))).cell (addr i) = .word (w i) := by
  induction l generalizing m with
  | nil => simp at hi
  | cons j l ih =>
    rw [List.nodup_cons] at hl
    rw [List.map_cons, Memory.writeAll_cons]
    by_cases hij : i ∈ l
    · exact ih _ hl.2 hij
    · obtain rfl : i = j := by simpa [hij] using hi
      rw [Memory.cell_writeAll_other]
      · simp
      · intro p hp
        obtain ⟨k, hk, rfl⟩ := List.mem_map.1 hp
        exact fun h => hij (hinj h ▸ hk)

/-- An address is unspecified in a canonical memory whose first entry lies above it. -/
theorem Memory.cell_below {a : Nat} {m : Memory} (h : ∀ p ∈ m, a < p.1) : m.cell a = .unspecified := by
  induction m with
  | nil => rfl
  | cons q m ih =>
    obtain ⟨c, x⟩ := q
    have hc : a < c := h (c, x) (by simp)
    rw [Memory.cell, if_neg (by omega)]
    exact ih fun p hp => h p (List.mem_cons_of_mem _ hp)

/-- Canonical memories that read alike are equal. -/
theorem Memory.ext_cell {m m' : Memory} (h : m.wf) (h' : m'.wf) (heq : ∀ a, m.cell a = m'.cell a) : m = m' := by
  induction m generalizing m' with
  | nil =>
    cases m' with
    | nil => rfl
    | cons q m' =>
      obtain ⟨c, x⟩ := q
      simpa [Memory.cell] using heq c
  | cons p m ih =>
    obtain ⟨a, x⟩ := p
    obtain ⟨hlt, hm⟩ := Memory.wf_cons.1 h
    cases m' with
    | nil => simpa [Memory.cell] using heq a
    | cons q m' =>
      obtain ⟨c, y⟩ := q
      obtain ⟨hlt', hm'⟩ := Memory.wf_cons.1 h'
      have hac : a = c := by
        rcases lt_trichotomy a c with hlt1 | rfl | hlt1
        · have h1 := heq a
          rw [Memory.cell, if_pos rfl, Memory.cell_below (m := (c, y) :: m')] at h1
          · cases h1
          · intro p hp
            rcases List.mem_cons.1 hp with rfl | hp
            · exact hlt1
            · exact lt_trans hlt1 (hlt' p hp)
        · rfl
        · have h1 := heq c
          rw [Memory.cell_below (m := (a, x) :: m), Memory.cell, if_pos rfl] at h1
          · cases h1
          · intro p hp
            rcases List.mem_cons.1 hp with rfl | hp
            · exact hlt1
            · exact lt_trans hlt1 (hlt p hp)
      subst hac
      have hxy : x = y := by simpa [Memory.cell] using heq a
      subst hxy
      have hrest : m = m' := ih hm hm' fun b => by
        by_cases hb : b = a
        · subst hb
          rw [Memory.cell_below hlt, Memory.cell_below hlt']
        · simpa [Memory.cell, hb] using heq b
      rw [hrest]

end Sys2Proof.Machine
end

