-- ==== Sys2Proof/Laws/Operands.lean ====
section
/-! SUPPORT. The laws of the operand forms: wirings, the index functions, the addresses of the buffers; and of the pure functions over them. -/

namespace Sys2Proof.Machine

/-- The four registers of a wiring are distinct (R110). -/
theorem wire_distinct : ∀ w : BitVec 3,
    (wire w).a ≠ (wire w).b ∧ (wire w).a ≠ (wire w).c ∧ (wire w).a ≠ (wire w).d ∧
    (wire w).b ≠ (wire w).c ∧ (wire w).b ≠ (wire w).d ∧ (wire w).c ≠ (wire w).d := by decide

/-- What a register holds after four values were written through a wiring. -/
theorem getElem_setWiring {α : Type} (v : Vector α 16) (r : Wiring) (a b c d : α) (i : Fin 16) :
    (setWiring v r a b c d)[i] =
      if i = r.d then d else if i = r.c then c else if i = r.b then b else if i = r.a then a else v[i] := by
  simp [setWiring, Vector.getElem_set, Fin.ext_iff, eq_comm]

theorem rowidx_injective (n : BitVec 3) : Function.Injective (rowidx n) := by
  intro i j h
  simp only [rowidx, Fin.mk.injEq] at h
  exact Fin.ext (by omega)

theorem colidx_injective (n : BitVec 3) : Function.Injective (colidx n) := by
  intro i j h
  simp only [colidx, Fin.mk.injEq] at h
  exact Fin.ext (by omega)

/-- Different groups of pass 1 are disjoint. -/
theorem rowidx_disjoint {n m : BitVec 3} (h : n ≠ m) (i j : Fin 16) : rowidx n i ≠ rowidx m j := by
  intro he
  simp only [rowidx, Fin.mk.injEq] at he
  exact h (BitVec.eq_of_toNat_eq (by omega))

/-- Different groups of pass 2 are disjoint. -/
theorem colidx_disjoint {n m : BitVec 3} (h : n ≠ m) (i j : Fin 16) : colidx n i ≠ colidx m j := by
  intro he
  simp only [colidx, Fin.mk.injEq] at he
  have := n.isLt
  have := m.isLt
  exact h (BitVec.eq_of_toNat_eq (by omega))

theorem zAddr_injective : Function.Injective zAddr := fun i j h => Fin.ext (by simp only [zAddr] at h; omega)

theorem aAddr_injective : Function.Injective aAddr := fun i j h => Fin.ext (by simp only [aAddr] at h; omega)

theorem bAddr_injective : Function.Injective bAddr := fun i j h => Fin.ext (by simp only [bAddr] at h; omega)

@[simp] theorem aAddr_ne_zAddr (i j : Fin 128) : aAddr i ≠ zAddr j := by simp only [aAddr, zAddr]; omega
@[simp] theorem bAddr_ne_zAddr (i j : Fin 128) : bAddr i ≠ zAddr j := by simp only [bAddr, zAddr]; omega
@[simp] theorem aAddr_ne_bAddr (i j : Fin 128) : aAddr i ≠ bAddr j := by simp only [aAddr, bAddr]; omega
@[simp] theorem zAddr_ne_aAddr (i j : Fin 128) : zAddr j ≠ aAddr i := (aAddr_ne_zAddr i j).symm
@[simp] theorem zAddr_ne_bAddr (i j : Fin 128) : zAddr j ≠ bAddr i := (bAddr_ne_zAddr i j).symm
@[simp] theorem bAddr_ne_aAddr (i j : Fin 128) : bAddr j ≠ aAddr i := (aAddr_ne_bAddr i j).symm

@[simp] theorem getElem_xorBlock (x y : Block) (i : Fin 128) : (xorBlock x y)[i] = xor64 x[i] y[i] := by simp [xorBlock]

/-- A fold of writes leaves alone a place that it does not name. -/
theorem getElem_foldl_set_other (idx : Fin 16 → Fin 128) (v : Vector Word 16) (l : List (Fin 16)) (z : Block) (j : Fin 128)
    (h : ∀ i ∈ l, idx i ≠ j) : (l.foldl (fun z i => z.set (idx i) v[i]) z)[j] = z[j] := by
  induction l generalizing z with
  | nil => rfl
  | cons i l ih =>
    rw [List.foldl_cons, ih _ fun k hk => h k (List.mem_cons_of_mem _ hk)]
    have hij : (idx i).val ≠ j.val := fun he => h i (by simp) (Fin.ext he)
    simp [hij]

/-- A fold of writes through an injective index function. -/
theorem getElem_foldl_set_same (idx : Fin 16 → Fin 128) (hinj : Function.Injective idx) (v : Vector Word 16) (l : List (Fin 16))
    (hl : l.Nodup) (z : Block) {i : Fin 16} (hi : i ∈ l) : (l.foldl (fun z i => z.set (idx i) v[i]) z)[idx i] = v[i] := by
  induction l generalizing z with
  | nil => simp at hi
  | cons k l ih =>
    rw [List.nodup_cons] at hl
    rw [List.foldl_cons]
    by_cases hil : i ∈ l
    · exact ih hl.2 _ hil
    · obtain rfl : i = k := by simpa [hil] using hi
      rw [getElem_foldl_set_other]
      · simp
      · exact fun j hj he => hil (hinj he ▸ hj)

/-- A scattered group: each place of the group holds its register. -/
theorem getElem_scatterBlock_same {idx : Fin 16 → Fin 128} (hinj : Function.Injective idx) (z : Block) (v : Vector Word 16) (i : Fin 16) :
    (scatterBlock idx z v)[idx i] = v[i] :=
  getElem_foldl_set_same idx hinj v _ (List.nodup_finRange 16) z (List.mem_finRange i)

/-- A scattered group: every other place is unchanged. -/
theorem getElem_scatterBlock_other {idx : Fin 16 → Fin 128} (z : Block) (v : Vector Word 16) {j : Fin 128} (h : ∀ i, idx i ≠ j) :
    (scatterBlock idx z v)[j] = z[j] :=
  getElem_foldl_set_other idx v _ z j fun i _ => h i

/-- The sixteen words of a group, as the registers that a gather loads. -/
def groupWords (idx : Fin 16 → Fin 128) (z : Block) : Vector Word 16 := Vector.ofFn fun i => z[idx i]

@[simp] theorem getElem_groupWords (idx : Fin 16 → Fin 128) (z : Block) (i : Fin 16) : (groupWords idx z)[i] = z[idx i] := by
  simp [groupWords]

theorem groupRound_eq (idx : Fin 16 → Fin 128) (z : Block) : groupRound idx z = scatterBlock idx z (pfn (groupWords idx z)) := rfl

/-- A group's round replaces the group's words by `Pfn` of them. -/
theorem getElem_groupRound_same {idx : Fin 16 → Fin 128} (hinj : Function.Injective idx) (z : Block) (i : Fin 16) :
    (groupRound idx z)[idx i] = (pfn (groupWords idx z))[i] := by
  rw [groupRound_eq, getElem_scatterBlock_same hinj]

/-- A group's round leaves every other word alone. -/
theorem getElem_groupRound_other {idx : Fin 16 → Fin 128} (z : Block) {j : Fin 128} (h : ∀ i, idx i ≠ j) :
    (groupRound idx z)[j] = z[j] := by
  rw [groupRound_eq, getElem_scatterBlock_other _ _ h]

end Sys2Proof.Machine
end

