-- ==== Sys2Proof/Laws/State.lean ====
section
/-! SUPPORT. One lemma per field per update of State, so that no later proof unfolds a record update. -/

namespace Sys2Proof.Machine

/-! ### State.advance -/

@[simp] theorem State.advance_v (s : State) : (s.advance).v = s.v := rfl
@[simp] theorem State.advance_upc (s : State) : (s.advance).upc = s.upc + 1 := rfl
@[simp] theorem State.advance_phase (s : State) : (s.advance).phase = s.phase := rfl
@[simp] theorem State.advance_errinfo (s : State) : (s.advance).errinfo = s.errinfo := rfl
@[simp] theorem State.advance_mem (s : State) : (s.advance).mem = s.mem := rfl
@[simp] theorem State.advance_wa (s : State) : (s.advance).wa = s.wa := rfl
@[simp] theorem State.advance_wb (s : State) : (s.advance).wb = s.wb := rfl
@[simp] theorem State.advance_urom (s : State) : (s.advance).urom = s.urom := rfl
@[simp] theorem State.advance_events (s : State) : (s.advance).events = s.events := rfl
@[simp] theorem State.advance_replies (s : State) : (s.advance).replies = s.replies := rfl
@[simp] theorem State.advance_draws (s : State) : (s.advance).draws = s.draws := rfl
@[simp] theorem State.advance_modelFault (s : State) : (s.advance).modelFault = s.modelFault := rfl

/-! ### State.withV -/

@[simp] theorem State.withV_v (s : State) (x : Vector Cell 16) : (s.withV x).v = x := rfl
@[simp] theorem State.withV_upc (s : State) (x : Vector Cell 16) : (s.withV x).upc = s.upc := rfl
@[simp] theorem State.withV_phase (s : State) (x : Vector Cell 16) : (s.withV x).phase = s.phase := rfl
@[simp] theorem State.withV_errinfo (s : State) (x : Vector Cell 16) : (s.withV x).errinfo = s.errinfo := rfl
@[simp] theorem State.withV_mem (s : State) (x : Vector Cell 16) : (s.withV x).mem = s.mem := rfl
@[simp] theorem State.withV_wa (s : State) (x : Vector Cell 16) : (s.withV x).wa = s.wa := rfl
@[simp] theorem State.withV_wb (s : State) (x : Vector Cell 16) : (s.withV x).wb = s.wb := rfl
@[simp] theorem State.withV_urom (s : State) (x : Vector Cell 16) : (s.withV x).urom = s.urom := rfl
@[simp] theorem State.withV_events (s : State) (x : Vector Cell 16) : (s.withV x).events = s.events := rfl
@[simp] theorem State.withV_replies (s : State) (x : Vector Cell 16) : (s.withV x).replies = s.replies := rfl
@[simp] theorem State.withV_draws (s : State) (x : Vector Cell 16) : (s.withV x).draws = s.draws := rfl
@[simp] theorem State.withV_modelFault (s : State) (x : Vector Cell 16) : (s.withV x).modelFault = s.modelFault := rfl

/-! ### State.withMem -/

@[simp] theorem State.withMem_v (s : State) (m : Memory) : (s.withMem m).v = s.v := rfl
@[simp] theorem State.withMem_upc (s : State) (m : Memory) : (s.withMem m).upc = s.upc := rfl
@[simp] theorem State.withMem_phase (s : State) (m : Memory) : (s.withMem m).phase = s.phase := rfl
@[simp] theorem State.withMem_errinfo (s : State) (m : Memory) : (s.withMem m).errinfo = s.errinfo := rfl
@[simp] theorem State.withMem_mem (s : State) (m : Memory) : (s.withMem m).mem = m := rfl
@[simp] theorem State.withMem_wa (s : State) (m : Memory) : (s.withMem m).wa = s.wa := rfl
@[simp] theorem State.withMem_wb (s : State) (m : Memory) : (s.withMem m).wb = s.wb := rfl
@[simp] theorem State.withMem_urom (s : State) (m : Memory) : (s.withMem m).urom = s.urom := rfl
@[simp] theorem State.withMem_events (s : State) (m : Memory) : (s.withMem m).events = s.events := rfl
@[simp] theorem State.withMem_replies (s : State) (m : Memory) : (s.withMem m).replies = s.replies := rfl
@[simp] theorem State.withMem_draws (s : State) (m : Memory) : (s.withMem m).draws = s.draws := rfl
@[simp] theorem State.withMem_modelFault (s : State) (m : Memory) : (s.withMem m).modelFault = s.modelFault := rfl

/-! ### State.dropData -/

@[simp] theorem State.dropData_v (s : State) : (s.dropData).v = unspecifiedV := rfl
@[simp] theorem State.dropData_upc (s : State) : (s.dropData).upc = s.upc := rfl
@[simp] theorem State.dropData_phase (s : State) : (s.dropData).phase = s.phase := rfl
@[simp] theorem State.dropData_errinfo (s : State) : (s.dropData).errinfo = s.errinfo := rfl
@[simp] theorem State.dropData_mem (s : State) : (s.dropData).mem = [] := rfl
@[simp] theorem State.dropData_wa (s : State) : (s.dropData).wa = s.wa := rfl
@[simp] theorem State.dropData_wb (s : State) : (s.dropData).wb = s.wb := rfl
@[simp] theorem State.dropData_urom (s : State) : (s.dropData).urom = s.urom := rfl
@[simp] theorem State.dropData_events (s : State) : (s.dropData).events = s.events := rfl
@[simp] theorem State.dropData_replies (s : State) : (s.dropData).replies = s.replies := rfl
@[simp] theorem State.dropData_draws (s : State) : (s.dropData).draws = s.draws := rfl
@[simp] theorem State.dropData_modelFault (s : State) : (s.dropData).modelFault = s.modelFault := rfl

/-! ### State.reply -/

@[simp] theorem State.reply_v (s : State) (r : Reply) : (s.reply r).v = s.v := rfl
@[simp] theorem State.reply_upc (s : State) (r : Reply) : (s.reply r).upc = s.upc := rfl
@[simp] theorem State.reply_phase (s : State) (r : Reply) : (s.reply r).phase = s.phase := rfl
@[simp] theorem State.reply_errinfo (s : State) (r : Reply) : (s.reply r).errinfo = s.errinfo := rfl
@[simp] theorem State.reply_mem (s : State) (r : Reply) : (s.reply r).mem = s.mem := rfl
@[simp] theorem State.reply_wa (s : State) (r : Reply) : (s.reply r).wa = s.wa := rfl
@[simp] theorem State.reply_wb (s : State) (r : Reply) : (s.reply r).wb = s.wb := rfl
@[simp] theorem State.reply_urom (s : State) (r : Reply) : (s.reply r).urom = s.urom := rfl
@[simp] theorem State.reply_events (s : State) (r : Reply) : (s.reply r).events = s.events := rfl
@[simp] theorem State.reply_replies (s : State) (r : Reply) : (s.reply r).replies = r :: s.replies := rfl
@[simp] theorem State.reply_draws (s : State) (r : Reply) : (s.reply r).draws = s.draws := rfl
@[simp] theorem State.reply_modelFault (s : State) (r : Reply) : (s.reply r).modelFault = s.modelFault := rfl

/-! ### State.draw -/

@[simp] theorem State.draw_v (s : State) : (s.draw).v = s.v := rfl
@[simp] theorem State.draw_upc (s : State) : (s.draw).upc = s.upc := rfl
@[simp] theorem State.draw_phase (s : State) : (s.draw).phase = s.phase := rfl
@[simp] theorem State.draw_errinfo (s : State) : (s.draw).errinfo = s.errinfo := rfl
@[simp] theorem State.draw_mem (s : State) : (s.draw).mem = s.mem := rfl
@[simp] theorem State.draw_wa (s : State) : (s.draw).wa = s.wa := rfl
@[simp] theorem State.draw_wb (s : State) : (s.draw).wb = s.wb := rfl
@[simp] theorem State.draw_urom (s : State) : (s.draw).urom = s.urom := rfl
@[simp] theorem State.draw_events (s : State) : (s.draw).events = s.events := rfl
@[simp] theorem State.draw_replies (s : State) : (s.draw).replies = s.replies := rfl
@[simp] theorem State.draw_draws (s : State) : (s.draw).draws = s.draws + 1 := rfl
@[simp] theorem State.draw_modelFault (s : State) : (s.draw).modelFault = s.modelFault := rfl

/-! ### State.noteReads -/

@[simp] theorem State.noteReads_v (s : State) (b : Bool) : (s.noteReads b).v = s.v := by cases b <;> rfl
@[simp] theorem State.noteReads_upc (s : State) (b : Bool) : (s.noteReads b).upc = s.upc := by cases b <;> rfl
@[simp] theorem State.noteReads_phase (s : State) (b : Bool) : (s.noteReads b).phase = s.phase := by cases b <;> rfl
@[simp] theorem State.noteReads_errinfo (s : State) (b : Bool) : (s.noteReads b).errinfo = s.errinfo := by cases b <;> rfl
@[simp] theorem State.noteReads_mem (s : State) (b : Bool) : (s.noteReads b).mem = s.mem := by cases b <;> rfl
@[simp] theorem State.noteReads_wa (s : State) (b : Bool) : (s.noteReads b).wa = s.wa := by cases b <;> rfl
@[simp] theorem State.noteReads_wb (s : State) (b : Bool) : (s.noteReads b).wb = s.wb := by cases b <;> rfl
@[simp] theorem State.noteReads_urom (s : State) (b : Bool) : (s.noteReads b).urom = s.urom := by cases b <;> rfl
@[simp] theorem State.noteReads_events (s : State) (b : Bool) : (s.noteReads b).events = s.events := by cases b <;> rfl
@[simp] theorem State.noteReads_replies (s : State) (b : Bool) : (s.noteReads b).replies = s.replies := by cases b <;> rfl
@[simp] theorem State.noteReads_draws (s : State) (b : Bool) : (s.noteReads b).draws = if b then s.draws else s.draws + 1 := by cases b <;> rfl
@[simp] theorem State.noteReads_modelFault (s : State) (b : Bool) : (s.noteReads b).modelFault = (s.modelFault || !b) := by cases b <;> simp [State.noteReads]

/-! ### resetEvent -/

@[simp] theorem resetEvent_v (s : State) : (resetEvent s).v = unspecifiedV := rfl
@[simp] theorem resetEvent_upc (s : State) : (resetEvent s).upc = 0 := rfl
@[simp] theorem resetEvent_phase (s : State) : (resetEvent s).phase = .idle := rfl
@[simp] theorem resetEvent_errinfo (s : State) : (resetEvent s).errinfo = 0 := rfl
@[simp] theorem resetEvent_mem (s : State) : (resetEvent s).mem = [] := rfl
@[simp] theorem resetEvent_wa (s : State) : (resetEvent s).wa = 0 := rfl
@[simp] theorem resetEvent_wb (s : State) : (resetEvent s).wb = 0 := rfl
@[simp] theorem resetEvent_urom (s : State) : (resetEvent s).urom = s.urom := rfl
@[simp] theorem resetEvent_events (s : State) : (resetEvent s).events = s.events := rfl
@[simp] theorem resetEvent_replies (s : State) : (resetEvent s).replies = s.replies := rfl
@[simp] theorem resetEvent_draws (s : State) : (resetEvent s).draws = s.draws := rfl
@[simp] theorem resetEvent_modelFault (s : State) : (resetEvent s).modelFault = s.modelFault := rfl

/-! ### raiseFault -/

@[simp] theorem raiseFault_upc (code : FaultCode) (addr : HostAddr) (s : State) : (raiseFault code addr s).upc = s.upc := by unfold raiseFault; split <;> rfl
@[simp] theorem raiseFault_phase (code : FaultCode) (addr : HostAddr) (s : State) : (raiseFault code addr s).phase = .fault := by unfold raiseFault; split <;> first | assumption | rfl
@[simp] theorem raiseFault_urom (code : FaultCode) (addr : HostAddr) (s : State) : (raiseFault code addr s).urom = s.urom := by unfold raiseFault; split <;> rfl
@[simp] theorem raiseFault_events (code : FaultCode) (addr : HostAddr) (s : State) : (raiseFault code addr s).events = s.events := by unfold raiseFault; split <;> rfl
@[simp] theorem raiseFault_replies (code : FaultCode) (addr : HostAddr) (s : State) : (raiseFault code addr s).replies = s.replies := by unfold raiseFault; split <;> rfl
@[simp] theorem raiseFault_modelFault (code : FaultCode) (addr : HostAddr) (s : State) : (raiseFault code addr s).modelFault = s.modelFault := by unfold raiseFault; split <;> rfl

/-- The written-bits after one more is set (R40). -/
theorem setBit_getLsbD (w : BitVec 128) (j k : Fin 128) : (setBit w j).getLsbD k.val = (w.getLsbD k.val || k.val == j.val) := by
  rw [setBit, BitVec.getLsbD_or, BitVec.getLsbD_twoPow, decide_eq_true j.isLt, Bool.true_and]
  congr 1
  exact Bool.eq_iff_iff.2 (by rw [decide_eq_true_iff, beq_iff_eq]; exact eq_comm)

/-- With everything read specified, nothing is recorded. -/
@[simp] theorem State.noteReads_true (s : State) : s.noteReads true = s := rfl

/-- In FAULT fault entry does nothing (R204). -/
theorem raiseFault_fault {s : State} (h : s.phase = .fault) (code : FaultCode) (addr : HostAddr) : raiseFault code addr s = s := by
  simp [raiseFault, h]

/-- Fault entry in every other phase (R204). -/
theorem raiseFault_entry {s : State} (h : s.phase ≠ .fault) (code : FaultCode) (addr : HostAddr) :
    raiseFault code addr s =
      { s with v := unspecifiedV, mem := [], errinfo := errinfoWord (faultCodeBits code) s.upc addr, phase := .fault,
               wa := Config.freeBits s.draws 0, wb := Config.freeBits s.draws 1, draws := s.draws + 1 } := by
  simp [raiseFault, h, State.dropData]

end Sys2Proof.Machine
end

