-- ==== Sys2Proof/Laws/MicroOps.lean ====
section
/-! SUPPORT. What the shared operations of the micro-ops do: reading storage that holds words, gathering, scattering, the 128 lanes. -/

namespace Sys2Proof.Machine

theorem Cell.value_word (w : Word) (draw place : Nat) : (Cell.word w).value draw place = w := rfl

theorem Cell.specified_iff (c : Cell) : c.specified = true ↔ ∃ w, c = .word w := by
  cases c <;> simp [Cell.specified]

theorem State.readMem_of_word {s : State} {a : Nat} {w : Word} (h : s.cellAt a = .word w) : s.readMem a = w := by
  rw [State.readMem, h, Cell.value_word]

theorem State.readV_of_word {s : State} {i : Fin 16} {w : Word} (h : s.v[i] = .word w) : s.readV i = w := by
  rw [State.readV, h, Cell.value_word]

/-- A specified address holds the word that reading it answers. -/
theorem State.cellAt_of_specified {s : State} {a : Nat} (h : (s.cellAt a).specified = true) : s.cellAt a = .word (s.readMem a) := by
  obtain ⟨w, hw⟩ := (Cell.specified_iff _).1 h
  rw [State.readMem_of_word hw, hw]

/-- A specified register holds the word that reading it answers. -/
theorem State.v_of_specified {s : State} {i : Fin 16} (h : (s.v[i]).specified = true) : s.v[i] = .word (s.readV i) := by
  obtain ⟨w, hw⟩ := (Cell.specified_iff _).1 h
  rw [State.readV_of_word hw, hw]

theorem State.memSpecified_iff (s : State) (as : List Nat) :
    s.memSpecified as = true ↔ ∀ a ∈ as, (s.cellAt a).specified = true := by
  simp [State.memSpecified]

theorem State.vSpecified_iff (s : State) (is : List (Fin 16)) :
    s.vSpecified is = true ↔ ∀ i ∈ is, (s.v[i]).specified = true := by
  simp [State.vSpecified]

theorem State.groupSpecified_iff (s : State) (idx : Fin 16 → Fin 128) :
    s.memSpecified (groupAddrs idx) = true ↔ ∀ i, (s.cellAt (zAddr (idx i))).specified = true := by
  simp [State.memSpecified_iff, groupAddrs]

theorem State.bufferSpecified_iff (s : State) (addr : Fin 128 → Nat) :
    s.memSpecified (bufferAddrs addr) = true ↔ ∀ j, (s.cellAt (addr j)).specified = true := by
  simp [State.memSpecified_iff, bufferAddrs]

theorem State.fileSpecified_iff (s : State) :
    s.vSpecified (List.finRange 16) = true ↔ ∀ i : Fin 16, (s.v[i]).specified = true := by
  simp [State.vSpecified_iff]

theorem inputsSpecified_iff (s : State) :
    inputsSpecified s = true ↔
      (∀ j, (s.cellAt (aAddr j)).specified = true) ∧ ∀ j, (s.cellAt (bAddr j)).specified = true := by
  simp [inputsSpecified, State.bufferSpecified_iff]

/-- A gathered register holds the word read from its address. -/
theorem gather_v (idx : Fin 16 → Fin 128) (s : State) (i : Fin 16) : (gather idx s).v[i] = .word (s.readMem (zAddr (idx i))) := by
  simp [gather]

/-- A gather of a specified group changes `V` and `upc` only. -/
theorem gather_eq {idx : Fin 16 → Fin 128} {s : State} (h : ∀ i, (s.cellAt (zAddr (idx i))).specified = true) :
    gather idx s = { s with v := (gather idx s).v, upc := s.upc + 1 } := by
  simp [gather, (s.groupSpecified_iff idx).2 h, State.withV, State.advance]

/-- A gather leaves the memory alone. -/
theorem gather_mem (idx : Fin 16 → Fin 128) (s : State) : (gather idx s).mem = s.mem := by simp [gather]

theorem scatter_mem (idx : Fin 16 → Fin 128) (s : State) : (scatter idx s).mem = s.mem.writeAll (scatterWords idx s) := by
  simp [scatter]

/-- After a scatter each address of the group holds its register's word. -/
theorem scatter_cell_same {idx : Fin 16 → Fin 128} (hinj : Function.Injective idx) (s : State) (i : Fin 16) :
    (scatter idx s).cellAt (zAddr (idx i)) = .word (s.readV i) := by
  rw [State.cellAt, scatter_mem, scatterWords]
  exact Memory.cell_writeAll_map s.mem (fun i => zAddr (idx i)) _ (zAddr_injective.comp hinj) _ (List.nodup_finRange 16)
    (List.mem_finRange i)

/-- After a scatter every other address holds what it held. -/
theorem scatter_cell_other {idx : Fin 16 → Fin 128} (s : State) {a : Nat} (h : ∀ i, a ≠ zAddr (idx i)) :
    (scatter idx s).cellAt a = s.cellAt a := by
  rw [State.cellAt, scatter_mem, Memory.cell_writeAll_other, State.cellAt]
  intro p hp
  obtain ⟨i, -, rfl⟩ := List.mem_map.1 hp
  exact h i

/-- A scatter of specified registers changes the memory and `upc` only. -/
theorem scatter_eq {idx : Fin 16 → Fin 128} {s : State} (h : ∀ i : Fin 16, (s.v[i]).specified = true) :
    scatter idx s = { s with mem := (scatter idx s).mem, upc := s.upc + 1 } := by
  simp [scatter, s.fileSpecified_iff.2 h, State.withMem, State.advance]

@[simp] theorem writeLanes_mem (lane : Fin 128 → Word) (s : State) :
    (writeLanes lane s).mem = s.mem.writeAll ((List.finRange 128).map fun i => (zAddr i, lane i)) := by
  simp only [writeLanes, State.withMem_mem]

@[simp] theorem writeLanes_v (lane : Fin 128 → Word) (s : State) : (writeLanes lane s).v = s.v := by
  rw [writeLanes, State.withMem_v]
@[simp] theorem writeLanes_upc (lane : Fin 128 → Word) (s : State) : (writeLanes lane s).upc = s.upc := by
  rw [writeLanes, State.withMem_upc]
@[simp] theorem writeLanes_phase (lane : Fin 128 → Word) (s : State) : (writeLanes lane s).phase = s.phase := by
  rw [writeLanes, State.withMem_phase]
@[simp] theorem writeLanes_errinfo (lane : Fin 128 → Word) (s : State) : (writeLanes lane s).errinfo = s.errinfo := by
  rw [writeLanes, State.withMem_errinfo]
@[simp] theorem writeLanes_wa (lane : Fin 128 → Word) (s : State) : (writeLanes lane s).wa = s.wa := by
  rw [writeLanes, State.withMem_wa]
@[simp] theorem writeLanes_wb (lane : Fin 128 → Word) (s : State) : (writeLanes lane s).wb = s.wb := by
  rw [writeLanes, State.withMem_wb]
@[simp] theorem writeLanes_urom (lane : Fin 128 → Word) (s : State) : (writeLanes lane s).urom = s.urom := by
  rw [writeLanes, State.withMem_urom]
@[simp] theorem writeLanes_events (lane : Fin 128 → Word) (s : State) : (writeLanes lane s).events = s.events := by
  rw [writeLanes, State.withMem_events]
@[simp] theorem writeLanes_replies (lane : Fin 128 → Word) (s : State) : (writeLanes lane s).replies = s.replies := by
  rw [writeLanes, State.withMem_replies]
@[simp] theorem writeLanes_draws (lane : Fin 128 → Word) (s : State) : (writeLanes lane s).draws = s.draws := by
  rw [writeLanes, State.withMem_draws]
@[simp] theorem writeLanes_modelFault (lane : Fin 128 → Word) (s : State) : (writeLanes lane s).modelFault = s.modelFault := by
  rw [writeLanes, State.withMem_modelFault]

/-- After the lanes are written `Z[i]` holds lane `i`. -/
theorem writeLanes_cell_same (lane : Fin 128 → Word) (s : State) (i : Fin 128) :
    (writeLanes lane s).cellAt (zAddr i) = .word (lane i) := by
  rw [State.cellAt, writeLanes_mem]
  exact Memory.cell_writeAll_map s.mem zAddr lane zAddr_injective _ (List.nodup_finRange 128) (List.mem_finRange i)

/-- After the lanes are written every address outside `Z` holds what it held. -/
theorem writeLanes_cell_other (lane : Fin 128 → Word) (s : State) {a : Nat} (h : ∀ i, a ≠ zAddr i) :
    (writeLanes lane s).cellAt a = s.cellAt a := by
  rw [State.cellAt, writeLanes_mem, Memory.cell_writeAll_other, State.cellAt]
  intro p hp
  obtain ⟨i, -, rfl⟩ := List.mem_map.1 hp
  exact h i

/-- Writing the lanes and advancing changes the memory and `upc` only. -/
theorem advance_writeLanes_eq (lane : Fin 128 → Word) (s : State) :
    (writeLanes lane s).advance = { s with mem := (writeLanes lane s).advance.mem, upc := s.upc + 1 } := by
  rw [State.advance_mem, writeLanes_mem]
  unfold writeLanes
  generalize s.mem.writeAll ((List.finRange 128).map fun i => (zAddr i, lane i)) = m
  rfl

/-- `XORIN` as an equation, so that no proof unfolds the 128 lanes. -/
theorem exec_xorin (s : State) :
    exec .xorin s = .next ((writeLanes (xorinLane s) (s.noteReads (inputsSpecified s))).advance) := by
  rw [exec, execXorin]

/-- `FOLD` as an equation, so that no proof unfolds the 128 lanes. -/
theorem exec_fold (s : State) :
    exec .fold s =
      .next ((writeLanes (foldLane s) (s.noteReads (s.memSpecified (bufferAddrs zAddr) && inputsSpecified s))).advance) := by
  rw [exec, execFold]

@[simp] theorem State.cellAt_advance (s : State) (a : Nat) : s.advance.cellAt a = s.cellAt a := rfl
@[simp] theorem State.cellAt_withV (s : State) (v : Vector Cell 16) (a : Nat) : (s.withV v).cellAt a = s.cellAt a := rfl
@[simp] theorem State.cellAt_noteReads (s : State) (b : Bool) (a : Nat) : (s.noteReads b).cellAt a = s.cellAt a := by
  cases b <;> rfl

/-- The register file that `G w` leaves. -/
theorem writeQuad_getElem (v : Vector Cell 16) (r : Wiring) (q : Quad) (i : Fin 16) :
    (writeQuad v r q)[i] =
      if i = r.d then .word q.d else if i = r.c then .word q.c else if i = r.b then .word q.b
      else if i = r.a then .word q.a else v[i] :=
  getElem_setWiring v r _ _ _ _ i

/-- Every instruction, in every state, answers a next state. -/
theorem exec_next (i : Instr) (s : State) : ∃ t, exec i s = .next t := by
  cases i with
  | xorin => exact ⟨_, exec_xorin s⟩
  | fold => exact ⟨_, exec_fold s⟩
  | start => simp only [exec, execStart]; split <;> (try split) <;> exact ⟨_, rfl⟩
  | clr => simp only [exec, execClr]; split <;> exact ⟨_, rfl⟩
  | _ => exact ⟨_, rfl⟩

end Sys2Proof.Machine
end

