-- ==== Sys2Proof/Laws/PerInstr.lean ====
section
/-! SUPPORT. The families of statements made per instruction. `EncodeMatchesRow`: the encoded word of an instruction has the width of its row of the
opcode map and agrees with the row's match value under the row's mask (R81, R87). -/

namespace Sys2Proof.Laws.EncodeMatchesRow

/-- A word of the right width that matches the row under its mask. -/
def Statement (i : Instr) : Prop :=
  (encode i).bits.1 = (opcodeRow i).width ∧ (encode i).bits.2 &&& (opcodeRow i).mask = (opcodeRow i).pattern

theorem xorin : Statement .xorin := ⟨rfl, by decide⟩

theorem ldrow : ∀ n, Statement (.ldrow n) := fun n => ⟨rfl, by revert n; decide⟩

theorem ldcol : ∀ n, Statement (.ldcol n) := fun n => ⟨rfl, by revert n; decide⟩

theorem g : ∀ n, Statement (.g n) := fun n => ⟨rfl, by revert n; decide⟩

theorem strow : ∀ n, Statement (.strow n) := fun n => ⟨rfl, by revert n; decide⟩

theorem stcol : ∀ n, Statement (.stcol n) := fun n => ⟨rfl, by revert n; decide⟩

theorem bar : Statement .bar := ⟨rfl, by decide⟩

theorem fold : Statement .fold := ⟨rfl, by decide⟩

theorem done : Statement .done := ⟨rfl, by decide⟩

theorem nop : Statement .nop := ⟨rfl, by decide⟩

theorem start : Statement .start := ⟨rfl, by decide⟩

theorem clr : Statement .clr := ⟨rfl, by decide⟩

end Sys2Proof.Laws.EncodeMatchesRow
end

