-- ==== Sys2Proof/Laws/Step.lean ====
section
/-! SUPPORT. What a step can do, said once: a step is one turn; the turn of a micro-op and of a host transaction, by cases. -/

namespace Sys2Proof.Machine

/-- The state with its oldest pending turn taken off. -/
def State.popped (s : State) : State := { s with events := s.events.tail }

@[simp] theorem State.popped_v (s : State) : s.popped.v = s.v := rfl
@[simp] theorem State.popped_upc (s : State) : s.popped.upc = s.upc := rfl
@[simp] theorem State.popped_phase (s : State) : s.popped.phase = s.phase := rfl
@[simp] theorem State.popped_errinfo (s : State) : s.popped.errinfo = s.errinfo := rfl
@[simp] theorem State.popped_mem (s : State) : s.popped.mem = s.mem := rfl
@[simp] theorem State.popped_wa (s : State) : s.popped.wa = s.wa := rfl
@[simp] theorem State.popped_wb (s : State) : s.popped.wb = s.wb := rfl
@[simp] theorem State.popped_urom (s : State) : s.popped.urom = s.urom := rfl
@[simp] theorem State.popped_replies (s : State) : s.popped.replies = s.replies := rfl
@[simp] theorem State.popped_draws (s : State) : s.popped.draws = s.draws := rfl
@[simp] theorem State.popped_modelFault (s : State) : s.popped.modelFault = s.modelFault := rfl

/-- A step is the turn at the head of the list, or the sequencer's. -/
theorem step_eq_turn (s : State) : step s = turn (s.events.headD .engine) s.popped := by
  cases h : s.events with
  | nil =>
    have hs : s.popped = s := by
      simp only [State.popped, h, List.tail_nil]
      rw [← h]
    simp [step, h, hs, turn]
  | cons e rest => simp [step, h, turn, State.popped]

theorem step_of_events {s : State} {e : Event} {rest : List Event} (h : s.events = e :: rest) :
    step s = turn e { s with events := rest } := by
  simp [step, h]

theorem step_of_no_events {s : State} (h : s.events = []) : step s = sequencerTurn s := by
  simp [step, h]

/-- The sequencer's turn: quiet, a fault of the sequencer, or a micro-op. -/
theorem sequencerTurn_cases {s t : State} (h : sequencerTurn s = .next t) :
    (s.phase ≠ .busy ∧ t = s) ∨
    (s.phase = .busy ∧ t = raiseFault .uop 0 s ∧ (fetch s = none ∨ ∃ u why, fetch s = some u ∧ decodeUop u = .error why)) ∨
    (s.phase = .busy ∧ ∃ u i, fetch s = some u ∧ decodeUop u = .ok i ∧ exec i s = .next t) := by
  unfold sequencerTurn at h
  cases hp : s.phase with
  | busy =>
    simp only [hp, engineStep] at h
    cases hf : fetch s with
    | none =>
      simp only [hf] at h
      exact .inr (.inl ⟨rfl, by cases h; rfl, .inl rfl⟩)
    | some u =>
      simp only [hf] at h
      cases hd : decodeUop u with
      | error why =>
        simp only [hd] at h
        exact .inr (.inl ⟨rfl, by cases h; rfl, .inr ⟨u, why, rfl, hd⟩⟩)
      | ok i =>
        simp only [hd] at h
        exact .inr (.inr ⟨rfl, u, i, rfl, hd, h⟩)
  | idle => simp only [hp] at h; exact .inl ⟨by simp, by cases h; rfl⟩
  | done => simp only [hp] at h; exact .inl ⟨by simp, by cases h; rfl⟩
  | fault => simp only [hp] at h; exact .inl ⟨by simp, by cases h; rfl⟩

/-- A host write: no effect, a word stored, a fault, or a command. -/
theorem hostWrite_cases {s t : State} {addr : HostAddr} {d : Word} (h : hostWrite addr d s = .next t) :
    (s.phase = .fault ∧ t = s) ∨
    (s.phase = .idle ∧ ∃ j, region addr = .bufA j ∧ t = { s with mem := s.mem.write (aAddr j) d, wa := setBit s.wa j }) ∨
    (s.phase = .idle ∧ ∃ j, region addr = .bufB j ∧ t = { s with mem := s.mem.write (bAddr j) d, wb := setBit s.wb j }) ∨
    (s.phase ≠ .fault ∧ region addr ≠ .ctrl ∧ t = raiseFault .access addr s) ∨
    (s.phase ≠ .fault ∧ region addr = .ctrl ∧ (∃ why, decodeCommand d = .error why) ∧ t = raiseFault .cmd 0x180 s) ∨
    (s.phase ≠ .fault ∧ region addr = .ctrl ∧ ∃ i, decodeCommand d = .ok i ∧ exec i s = .next t) := by
  unfold hostWrite at h
  by_cases hf : s.phase = .fault
  · rw [if_pos hf] at h
    exact .inl ⟨hf, by cases h; rfl⟩
  · rw [if_neg hf] at h
    cases hr : region addr with
    | bufA j =>
      simp only [hr] at h
      split at h
      · next hi => exact .inr (.inl ⟨hi, j, rfl, by cases h; rfl⟩)
      · exact .inr (.inr (.inr (.inl ⟨hf, by simp, by cases h; rfl⟩)))
    | bufB j =>
      simp only [hr] at h
      split at h
      · next hi => exact .inr (.inr (.inl ⟨hi, j, rfl, by cases h; rfl⟩))
      · exact .inr (.inr (.inr (.inl ⟨hf, by simp, by cases h; rfl⟩)))
    | ctrl =>
      simp only [hr, command] at h
      cases hd : decodeCommand d with
      | error why =>
        simp only [hd] at h
        exact .inr (.inr (.inr (.inr (.inl ⟨hf, rfl, ⟨why, rfl⟩, by cases h; rfl⟩))))
      | ok i =>
        simp only [hd] at h
        exact .inr (.inr (.inr (.inr (.inr ⟨hf, rfl, i, rfl, h⟩))))
    | bufZ j => simp only [hr] at h; exact .inr (.inr (.inr (.inl ⟨hf, by simp, by cases h; rfl⟩)))
    | status => simp only [hr] at h; exact .inr (.inr (.inr (.inl ⟨hf, by simp, by cases h; rfl⟩)))
    | errinfo => simp only [hr] at h; exact .inr (.inr (.inr (.inl ⟨hf, by simp, by cases h; rfl⟩)))
    | reserved => simp only [hr] at h; exact .inr (.inr (.inr (.inl ⟨hf, by simp, by cases h; rfl⟩)))

/-- Every host write answers a next state. -/
theorem hostWrite_next (addr : HostAddr) (d : Word) (s : State) : ∃ t, hostWrite addr d s = .next t := by
  unfold hostWrite command
  repeat' split
  all_goals first | exact exec_next _ _ | exact ⟨_, rfl⟩

/-- The state after a host read: unchanged, a word of `Z` read in DONE, or a refused read. -/
theorem hostRead_cases (addr : HostAddr) (s : State) :
    (hostRead addr s).2 = s ∨
    (s.phase = .done ∧ ∃ j, region addr = .bufZ j ∧ (hostRead addr s).2 = s.noteReads (s.memSpecified [zAddr j])) ∨
    (hostRead addr s).2 = (raiseFault .access addr s).draw := by
  unfold hostRead
  cases hr : region addr with
  | bufZ j =>
    by_cases hd : s.phase = .done
    · exact .inr (.inl ⟨hd, j, rfl, by simp [hd]⟩)
    · exact .inr (.inr (by simp [hd, refusedRead]))
  | ctrl => exact .inl rfl
  | status => exact .inl rfl
  | errinfo => exact .inl rfl
  | bufA j => exact .inr (.inr rfl)
  | bufB j => exact .inr (.inr rfl)
  | reserved => exact .inr (.inr rfl)

/-- A turn with a next state: the sequencer's, a host write, a host read, or a reset. A bus access counts as its port transaction. -/
theorem turn_cases {e : Event} {s t : State} (h : turn e s = .next t) :
    (e = .engine ∧ sequencerTurn s = .next t) ∨
    (∃ addr d, (e = .port (.write addr d) ∨ ∃ b, e = .bus b ∧ adapt b = some (.write addr d)) ∧ hostWrite addr d s = .next t) ∨
    (∃ addr r, (e = .port (.read addr) ∨ ∃ b, e = .bus b ∧ adapt b = some (.read addr)) ∧ t = (hostRead addr s).2.reply r) ∨
    (e = .reset ∧ t = resetEvent s) := by
  cases e with
  | engine => exact .inl ⟨rfl, h⟩
  | reset => exact .inr (.inr (.inr ⟨rfl, by cases h; rfl⟩))
  | port tr =>
    cases tr with
    | write addr d => exact .inr (.inl ⟨addr, d, .inl rfl, h⟩)
    | read addr => exact .inr (.inr (.inl ⟨addr, _, .inl rfl, by cases h; rfl⟩))
  | bus b =>
    simp only [turn, busTurn] at h
    cases hb : adapt b with
    | none => simp [hb] at h
    | some tr =>
      simp only [hb] at h
      cases tr with
      | write addr d => exact .inr (.inl ⟨addr, d, .inr ⟨b, rfl, hb⟩, h⟩)
      | read addr => exact .inr (.inr (.inl ⟨addr, _, .inr ⟨b, rfl, hb⟩, by cases h; rfl⟩))

end Sys2Proof.Machine
end

