-- ==== Sys2Proof/Laws/Run.lean ====
section
/-! SUPPORT. The small laws of runs: one step at a time, the count of the sequencer's turns, and the turns that do not disturb an operation. -/

namespace Sys2Proof.Machine

@[simp] theorem runSteps_zero (s : State) : runSteps 0 s = .next s := rfl

/-- A run takes the first step and goes on from there. -/
theorem runSteps_succ {s t : State} (h : step s = .next t) (n : Nat) : runSteps (n + 1) s = runSteps n t := by
  have hstep : Sys2Proof.core.step s = .next t := h
  simp only [runSteps, Host.Core.run]
  rw [hstep]

/-- A run that reaches a state goes on from it. -/
theorem runSteps_add (m n : Nat) {s t : State} (h : runSteps m s = .next t) : runSteps (m + n) s = runSteps n t := by
  induction m generalizing s with
  | zero => cases h; rw [Nat.zero_add]
  | succ m ih =>
    cases hs : step s with
    | next u =>
      rw [runSteps_succ hs] at h
      rw [show m + 1 + n = m + n + 1 by omega, runSteps_succ hs]
      exact ih h
    | fault r => cases r
    | refused r =>
      have hstep : Sys2Proof.core.step s = .refused r := hs
      simp only [runSteps, Host.Core.run, hstep] at h
      cases h

@[simp] theorem engineTurns_zero (es : List Event) : engineTurns 0 es = 0 := by simp [engineTurns]

/-- With no turn pending every step is the sequencer's. -/
@[simp] theorem engineTurns_nil (n : Nat) : engineTurns n [] = n := by simp [engineTurns]

@[simp] theorem engineTurns_engine (n : Nat) (es : List Event) : engineTurns (n + 1) (.engine :: es) = engineTurns n es + 1 := by
  simp [engineTurns]; omega

theorem engineTurns_other {e : Event} (h : e ≠ .engine) (n : Nat) (es : List Event) :
    engineTurns (n + 1) (e :: es) = engineTurns n es := by
  simp [engineTurns, h]

theorem State.undisturbed_head {s : State} {n : Nat} {e : Event} {rest : List Event} (h : s.undisturbed (n + 1)) (he : s.events = e :: rest) :
    harmless e = true := h e (by simp [he])

/-- What follows the first turn disturbs as little. -/
theorem State.undisturbed_tail {s t : State} {n : Nat} {e : Event} {rest : List Event} (h : s.undisturbed (n + 1))
    (he : s.events = e :: rest) (ht : t.events = rest) : t.undisturbed n := by
  intro e' hm
  rw [ht] at hm
  exact h e' (by rw [he, List.take_succ_cons]; exact List.mem_cons_of_mem _ hm)

theorem State.undisturbed_nil {s : State} (h : s.events = []) (n : Nat) : s.undisturbed n := by
  intro e hm
  simp [h] at hm

end Sys2Proof.Machine
end

