-- ==== Sys2Proof/Tests/Slice0.lean ====
section
/-! SUPPORT. The model's own tests, each against a vector of 95_test_vectors.md or a value worked out by hand from the named rule, and a witness
for every statement that has hypotheses. -/

namespace Sys2Proof.Machine.Tests

/-! ## Well-formedness: an ill-formed term for each check, which the check refuses -/

theorem test_zClear_refuses : Uw8.zClear ⟨0x4, 1, 0⟩ = false ∧ Uw8.wellFormed ⟨0x4, 1, 0⟩ = false := by decide
theorem test_opDefined_refuses_zero : Uw8.opDefined ⟨0x0, 0, 0⟩ = false ∧ Uw8.wellFormed ⟨0x0, 0, 0⟩ = false := by decide
theorem test_opDefined_refuses_ten : Uw8.opDefined ⟨0xA, 0, 0⟩ = false ∧ Uw8.wellFormed ⟨0xA, 0, 0⟩ = false := by decide
theorem test_operandOk_refuses : Uw8.operandOk ⟨0x7, 0, 1⟩ = false ∧ Uw8.wellFormed ⟨0x7, 0, 1⟩ = false := by decide
theorem test_operandOk_accepts : Uw8.operandOk ⟨0x6, 0, 7⟩ = true ∧ Uw8.wellFormed ⟨0x6, 0, 7⟩ = true := by decide
theorem test_reservedClear_refuses : Hcmd64.reservedClear ⟨1, 1⟩ = false ∧ Hcmd64.wellFormed ⟨1, 1⟩ = false := by decide
theorem test_cmdDefined_refuses : Hcmd64.cmdDefined ⟨0, 3⟩ = false ∧ Hcmd64.wellFormed ⟨0, 3⟩ = false := by decide

/-! ## Decoding: every constructor from a word written out bit by bit (R80, R81, R87; vectors of section 2.6) -/

theorem test_decode_xorin : decodeUop 0b00010000 = .ok .xorin := by decide
theorem test_decode_ldrow : decodeUop 0b00100111 = .ok (.ldrow 7) := by decide
theorem test_decode_ldcol : decodeUop 0b00110000 = .ok (.ldcol 0) := by decide
theorem test_decode_g : decodeUop 0b01000101 = .ok (.g 5) := by decide
theorem test_decode_strow : decodeUop 0b01010111 = .ok (.strow 7) := by decide
theorem test_decode_stcol : decodeUop 0b01100001 = .ok (.stcol 1) := by decide
theorem test_decode_bar : decodeUop 0b01110000 = .ok .bar := by decide
theorem test_decode_fold : decodeUop 0b10000000 = .ok .fold := by decide
theorem test_decode_done : decodeUop 0b10010000 = .ok .done := by decide
theorem test_decode_nop : decodeCommand 0x0000000000000000 = .ok .nop := by decide
theorem test_decode_start : decodeCommand 0x0000000000000001 = .ok .start := by decide
theorem test_decode_clr : decodeCommand 0x0000000000000002 = .ok .clr := by decide

/-- The illegal words of section 2.6, each with the name of its rejection. -/
theorem test_decode_rejects_micro_words :
    [0x00, 0x11, 0x18, 0x28, 0x4F, 0x71, 0x88, 0x97, 0xA0, 0xFF, 0x08].map decodeUop =
      [.error .reservedOpcode, .error .operandNotZero, .error .zBitSet, .error .zBitSet, .error .zBitSet, .error .operandNotZero,
       .error .zBitSet, .error .operandNotZero, .error .reservedOpcode, .error .zBitSet, .error .zBitSet] := by decide

/-- V-H8, V-H9, V-H10. -/
theorem test_decode_rejects_commands :
    [0x3, 0x4, 0x8000000000000001].map decodeCommand =
      [.error .reservedCommand, .error .reservedCommandBits, .error .reservedCommandBits] := by decide

theorem test_decodeTableWord : decodeTableWord 8 0x67 = some (.stcol 7) ∧ decodeTableWord 64 2 = some .clr ∧
    decodeTableWord 8 0x167 = none ∧ decodeTableWord 16 0x10 = none := by decide

/-- R88's examples: the text of a micro-op, and of a host write with three and sixteen hexadecimal digits. -/
theorem test_text : instrText (.g 5) = "G 5".toList ∧ instrText .start = "WR 180, 0000000000000001".toList ∧
    transactionText (.read 0x1FF) = "RD 1FF".toList := by decide

/-! ## Primitives (section 2.1) and the byte order (R50) -/

/-- V-R1, V-R3, V-R4, V-R6, V-R7, V-R9, V-R10. -/
theorem test_rotr64 : rotr64 1 1 = 0x8000000000000000 ∧ rotr64 0x8000000000000000 63 = 1 ∧
    rotr64 0x0123456789ABCDEF 32 = 0x89ABCDEF01234567 ∧ rotr64 0x0123456789ABCDEF 64 = 0x0123456789ABCDEF ∧
    rotr64 0x0123456789ABCDEF 24 = 0xABCDEF0123456789 ∧ rotr64 0x0123456789ABCDEF 63 = 0x02468ACF13579BDE ∧
    rotr64 0x0123456789ABCDEF 96 = 0x89ABCDEF01234567 := by decide

/-- V-A1, V-A3, V-X1. -/
theorem test_add_xor : add64 0xFFFFFFFFFFFFFFFF 1 = 0 ∧ add64 0xFFFFFFFFFFFFFFFF 0xFFFFFFFFFFFFFFFF = 0xFFFFFFFFFFFFFFFE ∧
    xor64 0x00000000FFFFFFFF 0x0F0F0F0F0F0F0F0F = 0x0F0F0F0FF0F0F0F0 := by decide

/-- R50: the least significant byte first. -/
theorem test_word_bytes : wordBytes 0x0123456789ABCDEF = [0xEF, 0xCD, 0xAB, 0x89, 0x67, 0x45, 0x23, 0x01] ∧
    bytesWord [0xEF, 0xCD, 0xAB, 0x89, 0x67, 0x45, 0x23, 0x01] = 0x0123456789ABCDEF := by decide

/-- V-G9. -/
theorem test_gfn_mixed : gfn ⟨0x0123456789ABCDEF, 0xFEDCBA9876543210, 0x0F1E2D3C4B5A6978, 0x8796A5B4C3D2E1F0⟩ =
    ⟨0x97F1D3B597F1D3B4, 0x8576493A0D1EC1DC, 0xD54AF728917EB35B, 0x89FFABDCCDBAEF98⟩ := by decide

/-- V-L7. -/
theorem test_index_functions : rowidx 4 9 = 73 ∧ rowidx 7 15 = 127 ∧ colidx 0 2 = 16 ∧ colidx 7 15 = 127 ∧ colidx 3 8 = 70 ∧
    colidx 6 13 = 109 := by decide

/-- Words 0, 5, 11, 14 of V-P2. -/
theorem test_pfn : let v := pfn (Vector.ofFn fun i => BitVec.ofNat 64 i.val)
    v[0] = 0x303E56222F1C281D ∧ v[5] = 0x7828E08AE08CD47A ∧ v[11] = 0x273C4C5B40545626 ∧ v[14] = 0x6E443F2A38053A1D := by
  decide +kernel

/-- Words 1, 18 and 127 of the final dump of V-C3. -/
theorem test_compress : let z := compress (Vector.ofFn fun i => BitVec.ofNat 64 i.val) (Vector.replicate 128 0)
    z[1] = 0xBB1E6D5CDBD0235B ∧ z[18] = 0x0771EB19D7AB3F69 ∧ z[127] = 0x0C5F9E7FD6884046 := by
  decide +kernel

/-! ## States for the tests -/

/-- A block from its words. -/
def blk (f : Nat → Word) : Block := Vector.ofFn fun i => f i.val

/-- `A[j] = j`. -/
def blkA : Block := blk fun j => BitVec.ofNat 64 j

/-- `B[j] = 0xFFFFFFFFFFFFFFFF`. -/
def blkB : Block := blk fun _ => 0xFFFFFFFFFFFFFFFF

/-- The 128 memory entries of a buffer at `lo`. -/
def cells (lo : Nat) (b : Block) : Memory := (List.finRange 128).map fun j => (lo + j.val, b[j])

/-- `START` has just been accepted on `blkA` and `blkB`. -/
def started : State :=
  { State.reset with phase := .busy, mem := cells 0 blkA ++ cells 0x80 blkB, wa := allWritten, wb := allWritten }

/-- A micro-op is next in a running operation: `Z[j] = j`, `V[i] = 0x100 + i`. -/
def running : State :=
  { started with upc := 2, mem := cells 0 blkA ++ cells 0x80 blkB ++ cells 0x100 blkA,
                 v := Vector.ofFn fun i => .word (BitVec.ofNat 64 (0x100 + i.val)) }

/-- A finished operation (its `Z` is not a result). -/
def finished : State := { running with phase := .done, upc := 0 }

/-- Both blocks written, nothing started. -/
def complete : State := { started with phase := .idle }

/-- V-H3: `START` with nothing loaded. -/
def faulted : State := raiseFault .precond 0x180 State.reset

/-- The next turn is a host transaction. -/
def before (e : Event) (s : State) : State := { s with events := [e] }

/-- The field of a step's next state, if there is one. -/
def after {α : Type} (r : Result) (f : State → α) : Option α :=
  match r with
  | .next t => some (f t)
  | .fault _ => none
  | .refused _ => none

/-! ## One step of each instruction -/

/-- V-X2. -/
theorem test_xorin : ∃ t, exec .xorin started = .next t ∧ t.upc = 1 ∧ t.cellAt (zAddr 0) = .word 0xFFFFFFFFFFFFFFFF ∧
    t.cellAt (zAddr 5) = .word 0xFFFFFFFFFFFFFFFA ∧ t.cellAt (zAddr 127) = .word 0xFFFFFFFFFFFFFF80 := by
  refine ⟨_, exec_xorin started, by simp; decide, ?_⟩
  rw [State.cellAt_advance, State.cellAt_advance, State.cellAt_advance, writeLanes_cell_same, writeLanes_cell_same,
    writeLanes_cell_same]
  decide +kernel

/-- V-L1. -/
theorem test_ldrow : after (exec (.ldrow 3) running) (fun t => (t.v, t.upc)) =
    some (#v[48, 49, 50, 51, 52, 53, 54, 55, 56, 57, 58, 59, 60, 61, 62, 63].map .word, 3) := by decide +kernel

/-- V-L2. -/
theorem test_ldcol : after (exec (.ldcol 5) running) (fun t => (t.v, t.upc)) =
    some (#v[10, 11, 26, 27, 42, 43, 58, 59, 74, 75, 90, 91, 106, 107, 122, 123].map .word, 3) := by decide +kernel

/-- Section 2.2: the micro-op `G 5` on `V[i] = i * 0x1111111111111111`. -/
theorem test_g : after (exec (.g 5) { running with v := Vector.ofFn fun i => .word (BitVec.ofNat 64 (i.val * 0x1111111111111111)) })
      (fun t => [t.v[1], t.v[6], t.v[11], t.v[12], t.v[0], t.v[15]]) =
    some ([0x8888878888888888, 0x7777757745777771, 0xAAAAAAAAB3AAAAA9, 0x333333333C333333, 0, 0xFFFFFFFFFFFFFFFF].map .word) := by
  decide +kernel

/-- V-L6. -/
theorem test_strow : after (exec (.strow 2) running) (fun t => [31, 32, 47, 48].map fun j => t.cellAt (zAddr j)) =
    some ([31, 0x100, 0x10F, 48].map .word) := by decide +kernel

/-- V-L5. -/
theorem test_stcol : after (exec (.stcol 7) running) (fun t => [13, 14, 15, 16, 30, 111, 126, 127].map fun j => t.cellAt (zAddr j)) =
    some ([13, 0x100, 0x101, 16, 0x102, 0x10D, 0x10E, 0x10F].map .word) := by decide +kernel

/-- R174. -/
theorem test_bar : after (exec .bar { running with upc := 81 }) (fun t => (t.upc, t.phase)) = some (82, .busy) := by decide +kernel

/-- V-X4. -/
theorem test_fold :
    let m := running.mem.writeAll [(0x005, 0x00000000FFFFFFFF), (0x085, 0x0F0F0F0F0F0F0F0F), (0x105, 0x1111111111111111)]
    ∃ t, exec .fold (running.withMem m) = .next t ∧ t.cellAt (zAddr 5) = .word 0x1E1E1E1EE1E1E1E1 := by
  refine ⟨_, exec_fold _, ?_⟩
  rw [State.cellAt_advance, writeLanes_cell_same]
  decide +kernel

/-- R175. -/
theorem test_done : after (exec .done { running with upc := 163 }) (fun t => (t.upc, t.phase, statusWord t)) =
    some (0, .done, 2) := by decide +kernel

/-- V-H2. -/
theorem test_nop : after (step (before (.port (.write 0x180 0)) State.reset)) (fun t => (t.phase, t.errinfo)) = some (.idle, 0) := by
  decide +kernel

/-- V-H3. -/
theorem test_start_incomplete : after (step (before (.port (.write 0x180 1)) State.reset)) (fun t => (statusWord t, t.errinfo)) =
    some (4, 0x0000000001800001) := by decide +kernel

/-- V-H5. -/
theorem test_start_complete : after (step (before (.port (.write 0x180 1)) complete)) (fun t => (statusWord t, t.upc, t.errinfo)) =
    some (1, 0, 0) := by decide +kernel

/-- V-H22. -/
theorem test_clr_done : after (step (before (.port (.write 0x180 2)) finished)) (fun t => (statusWord t, t.wa, t.wb)) =
    some (0, 0, 0) := by decide +kernel

/-- V-H16. -/
theorem test_clr_busy : after (step (before (.port (.write 0x180 2)) { running with upc := 90 })) (fun t => t.errinfo) =
    some 0x0000000001805A02 := by decide +kernel

/-! ## The port, the bus, faults, reset, the fetch -/

/-- V-H15. -/
theorem test_write_busy : after (step (before (.port (.write 0x003 7)) { running with upc := 5 })) (fun t => t.errinfo) =
    some 0x0000000000030503 := by decide +kernel

/-- V-H6. -/
theorem test_read_idle : after (step (before (.port (.read 0x100)) State.reset)) (fun t => (t.errinfo, t.replies.length)) =
    some (0x0000000001000003, 1) := by decide +kernel

/-- R69: a read of `Z[127]` in DONE. -/
theorem test_read_done : after (step (before (.port (.read 0x17F)) finished)) (fun t => (t.replies, t.phase)) =
    some ([.word 127], .done) := by decide +kernel

/-- R68: a write to `B[127]` in IDLE. -/
theorem test_write_idle : after (step (before (.port (.write 0x0FF 9)) State.reset)) (fun t => (t.cellAt 0x0FF, t.wa, t.wb)) =
    some (.word 9, 0, 0x80000000000000000000000000000000) := by decide +kernel

/-- V-H25. -/
theorem test_reset_after_fault : after (step (before .reset faulted)) (fun t => (statusWord t, t.errinfo)) = some (0, 0) := by
  decide +kernel

/-- V-U1, the second step. -/
theorem test_illegal_micro_word : after (step { started with urom := [0x10, 0x00], upc := 1 }) (fun t => (statusWord t, t.errinfo)) =
    some (4, 0x0000000000000104) := by decide +kernel

/-- V-U2, the second step. -/
theorem test_past_the_end : after (step { started with urom := [0x10], upc := 1 }) (fun t => t.errinfo) = some 0x0000000000000104 := by
  decide +kernel

/-- R53: an access of 4 bytes is refused. -/
theorem test_bus_refuses : step (before (.bus (.read Config.base 4)) State.reset) = .refused .busAccess := by
  rw [step_of_events rfl]
  simp [turn, busTurn, adapt, busWordAddr]

/-- Log 7: the placed instruction is the one that runs. -/
theorem test_withFetchWord : after (step (State.reset.withFetchWord 8 0x47)) (fun t => (t.upc, t.phase)) = some (1, .busy) ∧
    after (step (State.reset.withFetchWord 64 1)) (fun t => t.errinfo) = some 0x0000000001800001 := by decide +kernel

/-! ## Witnesses: for every statement with hypotheses a state and operands that meet them all -/

theorem cell_cells_same (lo : Nat) (b : Block) (m : Memory) (j : Fin 128) (l : List (Fin 128)) (h : j ∈ l) :
    Memory.cell ((l.map fun j => (lo + j.val, b[j])) ++ m) (lo + j.val) = .word b[j] := by
  induction l with
  | nil => cases h
  | cons k l ih =>
    rw [List.map_cons, List.cons_append, Memory.cell]
    split
    · next h => rw [show j = k from Fin.ext (by omega)]
    · next hne =>
      exact ih ((List.mem_cons.1 h).resolve_left fun he => hne (by rw [he]))

theorem cell_cells_other (lo : Nat) (b : Block) (m : Memory) {a : Nat} (h : a < lo ∨ lo + 128 ≤ a) :
    Memory.cell (cells lo b ++ m) a = m.cell a := by
  unfold cells
  induction List.finRange 128 with
  | nil => rfl
  | cons k l ih => rw [List.map_cons, List.cons_append, Memory.cell, if_neg (by omega), ih]

theorem started_holdsA : started.holds aAddr blkA := fun j => cell_cells_same 0 blkA (cells 0x80 blkB) j _ (List.mem_finRange j)

theorem started_holdsB : started.holds bAddr blkB := fun j => by
  show Memory.cell (cells 0 blkA ++ cells 0x80 blkB) (bAddr j) = _
  rw [cell_cells_other _ _ _ (by simp only [bAddr]; omega), ← List.append_nil (cells 0x80 blkB)]
  exact cell_cells_same 0x80 blkB [] j _ (List.mem_finRange j)

theorem running_holdsA : running.holds aAddr blkA := fun j => by
  show Memory.cell (cells 0 blkA ++ cells 0x80 blkB ++ cells 0x100 blkA) (aAddr j) = _
  rw [List.append_assoc]
  exact cell_cells_same 0 blkA _ j _ (List.mem_finRange j)

theorem running_holdsB : running.holds bAddr blkB := fun j => by
  show Memory.cell (cells 0 blkA ++ cells 0x80 blkB ++ cells 0x100 blkA) (bAddr j) = _
  rw [List.append_assoc, cell_cells_other _ _ _ (by simp only [bAddr]; omega)]
  exact cell_cells_same 0x80 blkB _ j _ (List.mem_finRange j)

theorem running_holdsZ : running.holds zAddr blkA := fun j => by
  show Memory.cell (cells 0 blkA ++ cells 0x80 blkB ++ cells 0x100 blkA) (zAddr j) = _
  rw [List.append_assoc, cell_cells_other _ _ _ (by simp only [zAddr]; omega),
    cell_cells_other _ _ _ (by simp only [zAddr]; omega), ← List.append_nil (cells 0x100 blkA)]
  exact cell_cells_same 0x100 blkA [] j _ (List.mem_finRange j)

theorem started_z (j : Fin 128) : started.cellAt (zAddr j) = .unspecified := by
  show Memory.cell (cells 0 blkA ++ cells 0x80 blkB) (zAddr j) = _
  rw [cell_cells_other _ _ _ (by simp only [zAddr]; omega), ← List.append_nil (cells 0x80 blkB),
    cell_cells_other _ _ _ (by simp only [zAddr]; omega)]
  rfl

/-- The registers of `running` as words. -/
def runningWords : Vector Word 16 := Vector.ofFn fun i => BitVec.ofNat 64 (0x100 + i.val)

theorem running_words : running.v = wordsV runningWords := by decide +kernel

theorem cells_fst (lo : Nat) (b : Block) : (cells lo b).map Prod.fst = (List.finRange 128).map fun j => lo + j.val := by
  simp [cells, Function.comp_def]

theorem started_fst : started.mem.map Prod.fst = List.range 256 := by
  show (cells 0 blkA ++ cells 0x80 blkB).map Prod.fst = _
  rw [List.map_append, cells_fst, cells_fst]
  decide +kernel

theorem running_fst : running.mem.map Prod.fst = List.range 384 := by
  show (cells 0 blkA ++ cells 0x80 blkB ++ cells 0x100 blkA).map Prod.fst = _
  rw [List.map_append, List.map_append, cells_fst, cells_fst, cells_fst]
  decide +kernel

theorem started_mem_wf : started.mem.wf := by
  unfold Memory.wf
  rw [started_fst]
  exact List.pairwise_lt_range

theorem running_mem_wf : running.mem.wf := by
  unfold Memory.wf
  rw [running_fst]
  exact List.pairwise_lt_range

theorem started_below : ∀ p ∈ started.mem, p.1 < 0x180 := fun p hp => by
  have h := List.mem_map_of_mem (f := Prod.fst) hp
  rw [started_fst, List.mem_range] at h
  omega

theorem running_below : ∀ p ∈ running.mem, p.1 < 0x180 := fun p hp => by
  have h := List.mem_map_of_mem (f := Prod.fst) hp
  rwa [running_fst, List.mem_range] at h

theorem running_tracked (j : Fin 128) :
    (running.cellAt (aAddr j)).specified = allWritten.getLsbD j ∧ (running.cellAt (bAddr j)).specified = allWritten.getLsbD j := by
  rw [running_holdsA j, running_holdsB j, allWritten, BitVec.getLsbD_allOnes]
  simp [Cell.specified]

theorem started_tracked (j : Fin 128) :
    (started.cellAt (aAddr j)).specified = allWritten.getLsbD j ∧ (started.cellAt (bAddr j)).specified = allWritten.getLsbD j := by
  rw [started_holdsA j, started_holdsB j, allWritten, BitVec.getLsbD_allOnes]
  simp [Cell.specified]

/-- A state of the hardware in BUSY. -/
theorem running_inv : running.Inv where
  memCanonical := running_mem_wf
  memInBuffers := running_below
  uromIntact := rfl
  upcLegal := by decide
  upcQuiet := fun h => by rcases h with h | h <;> cases h
  noRecord := fun _ => rfl
  record := fun h => by cases h
  inputsTracked := fun _ => running_tracked
  inputsComplete := fun _ => ⟨rfl, rfl⟩
  idleData := fun h => by cases h
  faultData := fun h => by cases h
  workingBlock := fun _ _ j => by rw [running_holdsZ j]; rfl
  workingRegisters := fun _ _ => by decide
  resultBlock := fun h => by cases h
  noModelFault := rfl

/-- A state of the hardware in DONE, whatever turns are pending. -/
theorem finished_inv (es : List Event) : State.Inv { finished with events := es } where
  memCanonical := running_mem_wf
  memInBuffers := running_below
  uromIntact := rfl
  upcLegal := by simp [finished]
  upcQuiet := fun _ => rfl
  noRecord := fun _ => rfl
  record := fun h => by cases h
  inputsTracked := fun _ => running_tracked
  inputsComplete := fun _ => ⟨rfl, rfl⟩
  idleData := fun h => by cases h
  faultData := fun h => by cases h
  workingBlock := fun h => by cases h
  workingRegisters := fun h => by cases h
  resultBlock := fun _ j => by
    show (running.cellAt (zAddr j)).specified = true
    rw [running_holdsZ j]; rfl
  noModelFault := rfl

/-- A state of the hardware in FAULT, whatever turns are pending. -/
theorem faulted_inv (es : List Event) : State.Inv { faulted with events := es } where
  memCanonical := Memory.wf_nil
  memInBuffers := fun p h => by cases h
  uromIntact := rfl
  upcLegal := by show (0 : BitVec 8).toNat ≤ 163; decide
  upcQuiet := fun h => by rcases h with h | h <;> cases h
  noRecord := fun h => absurd rfl h
  record := fun _ => ⟨.precond, 0x180, by decide, rfl⟩
  inputsTracked := fun h => absurd rfl h
  inputsComplete := fun h => by rcases h with h | h <;> cases h
  idleData := fun h => by cases h
  faultData := fun _ => ⟨rfl, rfl⟩
  workingBlock := fun h => by cases h
  workingRegisters := fun h => by cases h
  resultBlock := fun h => by cases h
  noModelFault := rfl

/-- A state of the hardware in IDLE with both blocks written, whatever turns are pending. -/
theorem complete_inv (es : List Event) : State.Inv { complete with events := es } where
  memCanonical := started_mem_wf
  memInBuffers := started_below
  uromIntact := rfl
  upcLegal := by show (0 : BitVec 8).toNat ≤ 163; decide
  upcQuiet := fun _ => rfl
  noRecord := fun _ => rfl
  record := fun h => by cases h
  inputsTracked := fun _ => started_tracked
  inputsComplete := fun h => by rcases h with h | h <;> cases h
  idleData := fun _ => ⟨rfl, started_z⟩
  faultData := fun h => by cases h
  workingBlock := fun h => by cases h
  workingRegisters := fun h => by cases h
  resultBlock := fun h => by cases h
  noModelFault := rfl

theorem started_started : started.Started blkA blkB := ⟨rfl, rfl, rfl, started_holdsA, started_holdsB⟩

theorem witness_IllegalMicroWordsFaultAndExecuteNothing :
    let s : State := { started with urom := [0x10, 0x00], upc := 1 }
    s.phase = .busy ∧ s.events = [] ∧ fetch s = some 0x00 ∧ decodeUop 0x00 = .error .reservedOpcode := by decide +kernel

/-- The amounts 63 and 64, at the ends of the two clauses. -/
theorem witness_RotationMovesBitsRight : 1 ≤ 63 % 64 ∧ 1 ≤ 1 % 64 ∧ 64 % 64 = 0 := by decide

theorem witness_WiringsCoverTheRegistersTwice : ∃ half : List (BitVec 3), half = [0, 1, 2, 3] ∨ half = [4, 5, 6, 7] :=
  ⟨[4, 5, 6, 7], .inr rfl⟩

/-- A register outside the wiring 0; an index outside window 0 and outside column 0. -/
theorem witness_RoundFunctionIsABijection :
    (15 : Fin 16) ≠ (wire 0).a ∧ (15 : Fin 16) ≠ (wire 0).b ∧ (15 : Fin 16) ≠ (wire 0).c ∧ (15 : Fin 16) ≠ (wire 0).d := by decide

theorem witness_TwoPassesAreABijection : (∀ i, rowidx 0 i ≠ 16) ∧ ∀ i, colidx 0 i ≠ 2 := by decide

theorem witness_CompressIsSymmetricAndZeroOnEqualBlocks : ∃ r : Block, ∀ i : Fin 128, r[i] = xor64 blkA[i] blkB[i] :=
  ⟨xorBlock blkA blkB, fun i => getElem_xorBlock blkA blkB i⟩

theorem witness_OrderInsideAHalfIsFree : ([3, 1, 0, 2] : List (BitVec 3)).Perm [0, 1, 2, 3] ∧
    ([7, 4, 6, 5] : List (BitVec 3)).Perm [4, 5, 6, 7] := by decide

theorem witness_OrderOfGroupsInsideAPassIsFree : ([3, 7, 1, 5, 0, 4, 2, 6] : List (BitVec 3)).Perm groups := by decide

theorem witness_GMixesItsFourRegisters :
    let r := wire 7
    running.v[r.a] = .word 0x103 ∧ running.v[r.b] = .word 0x104 ∧ running.v[r.c] = .word 0x109 ∧ running.v[r.d] = .word 0x10E := by
  decide +kernel

/-- A register of the wiring 7 without a value, and input words without one. -/
theorem witness_UnspecifiedReadsRunOnFreeValues :
    (∃ i : Fin 16, i = (wire 7).d ∧ started.v[i] = .unspecified) ∧
    State.reset.cellAt (aAddr 0) = .unspecified ∧ State.reset.cellAt (bAddr 127) = .unspecified :=
  ⟨⟨14, by decide, by decide⟩, rfl, rfl⟩

theorem witness_PseudoPAppliesPfn : running.v = wordsV runningWords := running_words

/-- Window 7 and column 7, the last of each. -/
theorem witness_LoadsGatherTheirGroup :
    (∀ i : Fin 16, running.cellAt (zAddr (rowidx 7 i)) = .word (groupWords (rowidx 7) blkA)[i]) ∧
    ∀ i : Fin 16, running.cellAt (zAddr (colidx 7 i)) = .word (groupWords (colidx 7) blkA)[i] := by
  constructor <;> intro i <;> rw [running_holdsZ, getElem_groupWords]

theorem witness_StoresScatterTheirGroup : running.v = wordsV runningWords := running_words

theorem witness_LoadThenStoreLeavesZ :
    (∀ i : Fin 16, (running.cellAt (zAddr (rowidx 7 i))).specified = true) ∧
    ∀ i : Fin 16, (running.cellAt (zAddr (colidx 0 i))).specified = true := by
  constructor <;> intro i <;> rw [running_holdsZ] <;> rfl

theorem witness_XorinBuildsTheWorkingBlock : started.holds aAddr blkA ∧ started.holds bAddr blkB :=
  ⟨started_holdsA, started_holdsB⟩

theorem witness_FoldXorsBothInputsIntoZ : running.holds aAddr blkA ∧ running.holds bAddr blkB ∧ running.holds zAddr blkA :=
  ⟨running_holdsA, running_holdsB, running_holdsZ⟩

theorem witness_DoneEndsTheOperation : after (exec .done running) (·.events) = some [] := by decide +kernel

theorem witness_UpcAdvancesByOneOrRestarts :
    (isMicroOp (.stcol 7) = true ∧ Instr.stcol 7 ≠ .done) ∧
    (after (exec .start complete) (·.phase) = some .busy ∧ complete.phase ≠ .busy) ∧
    (let s : State := { running with upc := 164 }
     s.urom = uromWords ∧ s.phase = .busy ∧ 163 < s.upc.toNat) := by
  refine ⟨by decide, by decide +kernel, rfl, rfl, by decide⟩

theorem witness_MicroOpsKeepTheInputs : isMicroOp .xorin = true ∧ ∃ t, exec .xorin started = .next t :=
  ⟨rfl, _, exec_xorin started⟩

/-- A complete start; one written-bit missing; BUSY; DONE; FAULT. -/
theorem witness_StartBeginsOnlyACompleteOperation :
    (complete.phase = .idle ∧ complete.wa = allWritten ∧ complete.wb = allWritten) ∧
    (let s : State := { complete with wb := allWritten >>> 1 }
     s.phase = .idle ∧ (s.wa ≠ allWritten ∨ s.wb ≠ allWritten)) ∧
    running.phase = .busy ∧ finished.phase = .done ∧ faulted.phase = .fault := by
  refine ⟨⟨rfl, rfl, rfl⟩, ⟨rfl, .inr ?_⟩, rfl, rfl, rfl⟩
  decide

theorem witness_ClrGivesUpTheBlocks :
    complete.phase = .idle ∧ finished.phase = .done ∧ running.phase = .busy ∧ faulted.phase = .fault := ⟨rfl, rfl, rfl, rfl⟩

/-- A word for each clause: reserved bit 2, reserved bit 63, the value 3, and the three commands. -/
theorem witness_ControlWriteIsACommand :
    (∀ d : Word, (before (.port (.write 0x180 d)) complete).events = .port (.write 0x180 d) :: []) ∧
    faulted.phase = .fault ∧ complete.phase ≠ .fault ∧
    (4 : Word).extractLsb' 2 62 ≠ 0 ∧ (0x8000000000000001 : Word).extractLsb' 2 62 ≠ 0 ∧ (3 : Word).extractLsb' 0 2 = 3 ∧
    ((0 : Word).extractLsb' 2 62 = 0 ∧ (0 : Word).extractLsb' 0 2 = 0) ∧
    ((1 : Word).extractLsb' 2 62 = 0 ∧ (1 : Word).extractLsb' 0 2 = 1) ∧
    ((2 : Word).extractLsb' 2 62 = 0 ∧ (2 : Word).extractLsb' 0 2 = 2) := by
  refine ⟨fun _ => rfl, rfl, ?_⟩
  decide

/-- The first and the last address of each range, with a state for each clause. -/
theorem witness_HostWriteStoresOrFaults :
    (∀ a : HostAddr, (before (.port (.write a 9)) complete).events = .port (.write a 9) :: []) ∧
    faulted.phase = .fault ∧ complete.phase = .idle ∧ running.phase = .busy ∧ finished.phase = .done ∧
    (0x000 : HostAddr).toNat < 0x080 ∧ (0x07F : HostAddr).toNat < 0x080 ∧
    (0x080 ≤ (0x080 : HostAddr).toNat ∧ (0x080 : HostAddr).toNat < 0x100) ∧
    (0x080 ≤ (0x0FF : HostAddr).toNat ∧ (0x0FF : HostAddr).toNat < 0x100) ∧
    (0x100 ≤ (0x100 : HostAddr).toNat ∧ (0x100 : HostAddr) ≠ 0x180) ∧
    (0x100 ≤ (0x17F : HostAddr).toNat ∧ (0x17F : HostAddr) ≠ 0x180) ∧
    (0x100 ≤ (0x181 : HostAddr).toNat ∧ (0x181 : HostAddr) ≠ 0x180) ∧
    (0x100 ≤ (0x1FF : HostAddr).toNat ∧ (0x1FF : HostAddr) ≠ 0x180) := by
  refine ⟨fun _ => rfl, rfl, rfl, rfl, rfl, ?_⟩
  decide

/-- The first and the last address of each range, with a state for each clause. -/
theorem witness_HostReadReturnsOrFaults :
    (∀ a : HostAddr, (before (.port (.read a)) finished).events = .port (.read a) :: []) ∧
    (faulted.phase = .fault ∧ (0x183 : HostAddr) ≠ 0x180 ∧ (0x183 : HostAddr) ≠ 0x181 ∧ (0x183 : HostAddr) ≠ 0x182) ∧
    (finished.phase = .done ∧ 0x100 ≤ (0x100 : HostAddr).toNat ∧ finished.cellAt (0x100 : HostAddr).toNat = .word 0) ∧
    ((0x17F : HostAddr).toNat < 0x180 ∧ finished.cellAt (0x17F : HostAddr).toNat = .word 127) ∧
    (running.phase ≠ .fault ∧ (0x0FF : HostAddr).toNat < 0x100 ∧ 0x182 < (0x183 : HostAddr).toNat ∧
      (0x17F : HostAddr).toNat < 0x180 ∧ running.phase ≠ .done) := by
  refine ⟨fun _ => rfl, ?_⟩
  decide +kernel

theorem witness_StatusIsAViewOfThePhase :
    (before (.port (.read 0x181)) faulted).events = .port (.read 0x181) :: [] ∧
    (before (.port (.write 0x181 0)) running).events = .port (.write 0x181 0) :: [] ∧ running.phase ≠ .fault :=
  ⟨rfl, rfl, by decide⟩

/-- A narrower, a wider and a misaligned access, read and write. -/
theorem witness_BusAdapterForwardsAlignedWords :
    (∀ b n, (before (.bus (.read b n)) complete).events = .bus (.read b n) :: []) ∧
    (∀ b bs, (before (.bus (.write b bs)) complete).events = .bus (.write b bs) :: []) ∧
    (4 ≠ 8 ∨ 0 % 8 ≠ 0) ∧ (9 ≠ 8 ∨ 0 % 8 ≠ 0) ∧ (8 ≠ 8 ∨ 4 % 8 ≠ 0) ∧
    ((List.replicate 7 (0 : Byte)).length ≠ 8 ∨ 0 % 8 ≠ 0) := by
  refine ⟨fun _ _ => rfl, fun _ _ => rfl, ?_⟩
  decide

theorem witness_HarmlessTurnsLeaveTheRunAlone :
    running.phase = .busy ∧ (∀ e, (before e running).events = e :: []) ∧
    harmless (.port (.write 0x180 0)) = true ∧ harmless (.port (.read 0x181)) = true ∧ harmless (.port (.read 0x182)) = true :=
  ⟨rfl, fun _ => rfl, by decide⟩

theorem witness_FaultEntryRecordsAndDropsTheData : faulted.phase = .fault ∧ running.phase ≠ .fault := ⟨rfl, by decide⟩

/-- A state and writes at the ends of the range for each clause, each with a next state. -/
theorem witness_ChecksAreMadeInOrder :
    (running.phase ≠ .fault ∧ finished.phase ≠ .fault ∧ State.reset.phase ≠ .fault) ∧
    ([0x100, 0x17F, 0x181, 0x1FF].all fun a => 0x100 ≤ a.toNat && a != (0x180 : HostAddr) &&
      after (step (before (.port (.write a 3)) running)) (·.phase) == some .fault) = true ∧
    (running.phase ≠ .idle ∧ finished.phase ≠ .idle ∧ [0x000, 0x07F, 0x080, 0x0FF].all fun a : HostAddr => a.toNat < 0x100 &&
      after (step (before (.port (.write a 3)) running)) (·.phase) == some .fault &&
      after (step (before (.port (.write a 3)) finished)) (·.phase) == some .fault) ∧
    (after (step (before (.port (.write 0x180 4)) running)) (·.phase) = some .fault ∧ (4 : Word).extractLsb' 2 62 ≠ 0) ∧
    (after (step (before (.port (.write 0x180 3)) State.reset)) (·.phase) = some .fault ∧ (3 : Word).extractLsb' 0 2 = 3) ∧
    (after (step (before (.port (.write 0x180 1)) finished)) (·.phase) = some .fault ∧ finished.phase ≠ .idle) ∧
    (after (step (before (.port (.write 0x180 2)) running)) (·.phase) = some .fault ∧ running.phase = .busy) ∧
    (after (step (before (.port (.write 0x180 1)) State.reset)) (·.phase) = some .fault ∧ State.reset.phase = .idle ∧
      ¬ (State.reset.wa = allWritten ∧ State.reset.wb = allWritten)) := by decide +kernel

/-- Each turn that a clause names, in FAULT. -/
theorem witness_FaultsAreSticky :
    faulted.phase = .fault ∧ (∀ e, (before e faulted).events = e :: []) ∧ Event.engine ≠ .reset ∧
    Event.port (.write 0x180 2) ≠ .reset ∧ Event.port (.read 0x1FF) ≠ .reset ∧
    (∃ t, step (before .engine faulted) = .next t) ∧ ∃ t, step (before (.port (.write 0x180 2)) faulted) = .next t :=
  ⟨rfl, fun _ => rfl, by decide, by decide, by decide, ⟨_, rfl⟩, ⟨_, rfl⟩⟩

theorem witness_OnlyResetLeavesFault :
    faulted.phase = .fault ∧ ∃ t, step (before .reset faulted) = .next t ∧ t.phase ≠ .fault := ⟨rfl, _, rfl, by decide⟩

theorem witness_ResetEventRestoresTheResetState : (before .reset running).events = .reset :: [] := rfl

/-- Outside BUSY; past the end at 164; the last word at 163. -/
theorem witness_SequencerStepsOnlyWhenBusy :
    running.urom = uromWords ∧ finished.phase ≠ .busy ∧ running.phase = .busy ∧
    163 < (State.upc { running with upc := 164 }).toNat ∧ (State.upc { running with upc := 163 }).toNat ≤ 163 ∧
    decodeUop 0x90 = .ok .done := by
  refine ⟨rfl, by decide, rfl, by decide, by decide, by decide⟩

theorem witness_StepRunsTheDecodedInstruction :
    (running.phase = .busy ∧ running.urom[running.upc.toNat]? = some 0x40 ∧ decodeUop 0x40 = .ok (.g 0) ∧ running.events = [] ∧
      (before .engine running).events = .engine :: []) ∧
    (complete.phase ≠ .fault ∧ (before (.port (.write 0x180 1)) complete).events = .port (.write 0x180 1) :: [] ∧
      decodeCommand 1 = .ok .start) := by decide +kernel

/-- A step into each of BUSY, DONE, IDLE and FAULT. -/
theorem witness_PhaseChangesOnlyAsListed :
    after (step (before (.port (.write 0x180 1)) complete)) (·.phase) = some .busy ∧
    after (step { running with upc := 163 }) (·.phase) = some .done ∧
    after (step (before (.port (.write 0x180 2)) finished)) (·.phase) = some .idle ∧
    after (step (before (.port (.write 0x180 2)) running)) (·.phase) = some .fault := by decide +kernel

theorem witness_MicroProgramIsNeverWritten : ∃ t, step running = .next t := by
  rw [step_of_no_events (show running.events = [] from rfl), sequencerTurn, show running.phase = .busy from rfl]
  simp only [engineStep, show fetch running = some 0x40 by decide +kernel, show decodeUop 0x40 = .ok (.g 0) by decide]
  exact ⟨_, rfl⟩

theorem witness_EveryStepKeepsTheInvariant : running.Inv ∧ ∃ t, step running = .next t :=
  ⟨running_inv, witness_MicroProgramIsNeverWritten⟩

/-- The operation of `blkA` and `blkB` has just been started, and the host polls STATUS and writes a `NOP` around the first micro-op. -/
def polled : State := { started with events := [.port (.read 0x181), .engine, .port (.write 0x180 0)] }

theorem polled_started : polled.Started blkA blkB := ⟨rfl, rfl, rfl, started_holdsA, started_holdsB⟩

theorem polled_undisturbed (n : Nat) : polled.undisturbed n := fun e h => by
  have key : ∀ e ∈ polled.events, harmless e = true := by decide
  exact key e (List.mem_of_mem_take h)

/-- The lengths at which the sequencer has had 1, 81, 162, 163 and 164 turns; the silent host has as many turns as steps. -/
theorem witness_RunComputesCompress : polled.Started blkA blkB ∧ (∀ n, polled.undisturbed n) ∧
    engineTurns 2 polled.events = 1 ∧ engineTurns 83 polled.events = 81 ∧ engineTurns 164 polled.events = 162 ∧
    engineTurns 165 polled.events = 163 ∧ engineTurns 166 polled.events = 164 ∧ engineTurns 164 started.events = 164 :=
  ⟨polled_started, polled_undisturbed, by decide⟩

theorem witness_EveryOperationTakes164Steps : polled.Started blkA blkB ∧ (∀ n, polled.undisturbed n) ∧
    engineTurns 0 polled.events < 164 ∧ engineTurns 165 polled.events < 164 ∧ engineTurns 166 polled.events = 164 :=
  ⟨polled_started, polled_undisturbed, by decide⟩

theorem witness_AdmittedRunReadsNoUnspecifiedValue : polled.Started blkA blkB ∧ (∀ n, polled.undisturbed n) ∧
    engineTurns 166 polled.events ≤ 164 :=
  ⟨polled_started, polled_undisturbed, by decide⟩

/-- Two starts that differ in the registers, in what `Z` held, and in the host's turns. -/
theorem witness_ResultDependsOnTheBlocksOnly :
    let s' : State := { running with upc := 0 }
    polled.Started blkA blkB ∧ s'.Started blkA blkB ∧ polled.undisturbed 166 ∧ s'.undisturbed 164 ∧
    engineTurns 166 polled.events = 164 ∧ engineTurns 164 s'.events = 164 ∧ polled ≠ s' := by
  refine ⟨polled_started, ⟨rfl, rfl, rfl, running_holdsA, running_holdsB⟩, polled_undisturbed _, State.undisturbed_nil rfl _,
    by decide, by decide, fun h => ?_⟩
  have h := congrArg State.events h
  revert h
  decide

theorem witness_ProtocolReturnsCompress :
    let s : State := { complete with events := protocolTurns blkA blkB }
    s.Inv ∧ s.phase = .idle ∧ s.events = protocolTurns blkA blkB := ⟨complete_inv _, rfl, rfl⟩

/-- `CLR` in DONE, `CLR` in IDLE, and reset in FAULT. -/
theorem witness_NothingIsCarriedToTheNextCall :
    (let s := before (.port (.write 0x180 2)) finished
     s.Inv ∧ s.phase = .done ∧ s.events = .port (.write 0x180 2) :: [] ∧ ∃ t, step s = .next t) ∧
    (let s := before (.port (.write 0x180 2)) complete
     s.Inv ∧ s.phase = .idle ∧ s.events = .port (.write 0x180 2) :: [] ∧ ∃ t, step s = .next t) ∧
    (let s := before .reset faulted
     s.Inv ∧ s.events = .reset :: [] ∧ ∃ t, step s = .next t) :=
  ⟨⟨finished_inv _, rfl, rfl, _, rfl⟩, ⟨complete_inv _, rfl, rfl, _, rfl⟩, ⟨faulted_inv _, rfl, _, rfl⟩⟩

theorem witness_EnginesShareNoState :
    (∃ sys', systemStep 1 [State.reset, State.reset] = some sys') ∧
    ([State.reset, running][1]? = some running ∧ ∃ t, step running = .next t) ∧
    (let s := before (.port (.write 0x180 1)) running
     [s][0]? = some s ∧ s.phase = .busy ∧ s.events = .port (.write 0x180 1) :: []) ∧
    finished.phase = .done ∧ 1 < 2 :=
  ⟨⟨_, rfl⟩, ⟨rfl, witness_MicroProgramIsNeverWritten⟩, ⟨rfl, rfl, rfl⟩, rfl, by decide⟩

end Sys2Proof.Machine.Tests
end

section
/-! PROOFS of the statements of 00_scope.md about words: addition, exclusive OR and rotation (R8, R9, R10). -/

namespace Sys2Proof.Machine

/-- Settles O7: both operations are the library's on bit vectors. -/
theorem additionWrapsAndXorIsBitwise : Obligations.AdditionWrapsAndXorIsBitwise := by
  intro x y
  refine ⟨BitVec.toNat_add x y, fun i _ => ?_⟩
  rw [xor64, BitVec.getLsbD_xor, bne_iff_ne]

/-- Rotation by shifts, for every amount; at `n mod 64 = 0` the left shift leaves nothing. -/
theorem rotr64_eq_shifts (x : Word) (n : Nat) : rotr64 x n = (x >>> (n % 64)) ||| (x <<< (64 - n % 64)) :=
  BitVec.rotateRight_def

/-- Rotation by bits: the bits below `64 - n mod 64` come from the right shift, the others have wrapped around. -/
theorem getLsbD_rotr64 (x : Word) (n : Nat) {i : Nat} (hi : i < 64) :
    (rotr64 x n).getLsbD i = x.getLsbD ((i + n % 64) % 64) := by
  have hn : n % 64 < 64 := Nat.mod_lt n (by decide)
  rw [rotr64, BitVec.getLsbD_rotateRight]
  by_cases hlow : i < 64 - n % 64
  · have hstay : (i + n % 64) % 64 = n % 64 + i := by omega
    rw [decide_eq_true hlow, cond_true, hstay]
  · have hwrap : (i + n % 64) % 64 = i - (64 - n % 64) := by omega
    rw [decide_eq_false hlow, cond_false, decide_eq_true hi, Bool.true_and, hwrap]

/-- Settles O8: by bits, by shifts, and at a multiple of 64. -/
theorem rotationMovesBitsRight : Obligations.RotationMovesBitsRight := by
  intro x n
  refine ⟨fun i hi => getLsbD_rotr64 x n hi, fun _ => rotr64_eq_shifts x n, fun h => ?_⟩
  rw [rotr64_eq_shifts, h, BitVec.ushiftRight_zero, Nat.sub_zero, BitVec.shiftLeft_eq_zero (Nat.le_refl 64), BitVec.or_zero]

end Sys2Proof.Machine
end

section
/-! PROOFS. What the micro-ops do when something they read is unspecified: the model runs on and records it (R13, log 1). -/

namespace Sys2Proof.Machine

/-- `G w` as an equation. -/
theorem exec_g (w : BitVec 3) (s : State) :
    exec (.g w) s =
      .next (((s.noteReads (s.vSpecified [(wire w).a, (wire w).b, (wire w).c, (wire w).d])).withV
        (writeQuad s.v (wire w) (gfn (readQuad s (wire w))))).advance) := rfl

/-- A gather records an unspecified word of its group. -/
theorem gather_modelFault (idx : Fin 16 → Fin 128) (s : State) :
    (gather idx s).modelFault = (s.modelFault || !s.memSpecified (groupAddrs idx)) := by
  rw [gather, State.advance_modelFault, State.withV_modelFault, State.noteReads_modelFault]

/-- A scatter records a register without value. -/
theorem scatter_modelFault (idx : Fin 16 → Fin 128) (s : State) :
    (scatter idx s).modelFault = (s.modelFault || !s.vSpecified (List.finRange 16)) := by
  rw [scatter, State.advance_modelFault, State.withMem_modelFault, State.noteReads_modelFault]

@[simp] theorem gather_upc (idx : Fin 16 → Fin 128) (s : State) : (gather idx s).upc = s.upc + 1 := by
  rw [gather, State.advance_upc, State.withV_upc, State.noteReads_upc]

@[simp] theorem scatter_upc (idx : Fin 16 → Fin 128) (s : State) : (scatter idx s).upc = s.upc + 1 := by
  rw [scatter, State.advance_upc, State.withMem_upc, State.noteReads_upc]

/-- Reading a list of registers one of which has no value is a read of unspecified storage. -/
theorem State.vSpecified_eq_false {s : State} {is : List (Fin 16)} {i : Fin 16} (hi : i ∈ is) (h : s.v[i] = .unspecified) :
    s.vSpecified is = false := by
  refine Bool.eq_false_iff.2 fun hall => ?_
  have hspec := (s.vSpecified_iff is).1 hall i hi
  rw [h] at hspec
  cases hspec

/-- `A` and `B` with one word without value are not all specified. -/
theorem inputsSpecified_eq_false {s : State} {i : Fin 128}
    (h : s.cellAt (aAddr i) = .unspecified ∨ s.cellAt (bAddr i) = .unspecified) : inputsSpecified s = false := by
  refine Bool.eq_false_iff.2 fun hall => ?_
  obtain ⟨ha, hb⟩ := (inputsSpecified_iff s).1 hall
  rcases h with h | h
  · have hspec := ha i
    rw [h] at hspec
    cases hspec
  · have hspec := hb i
    rw [h] at hspec
    cases hspec

/-- A gather in any state: the registers hold the words read, free values included. -/
theorem gather_runs_on (idx : Fin 16 → Fin 128) (s : State) :
    (gather idx s).upc = s.upc + 1 ∧ (∀ i : Fin 16, (gather idx s).v[i] = .word (s.readMem (zAddr (idx i)))) ∧
      (gather idx s).modelFault = (s.modelFault || !s.memSpecified (groupAddrs idx)) :=
  ⟨gather_upc idx s, gather_v idx s, gather_modelFault idx s⟩

/-- A scatter in any state: the group holds the words read, free values included. -/
theorem scatter_runs_on {idx : Fin 16 → Fin 128} (hinj : Function.Injective idx) (s : State) :
    (scatter idx s).upc = s.upc + 1 ∧ (∀ i : Fin 16, (scatter idx s).cellAt (zAddr (idx i)) = .word (s.readV i)) ∧
      (scatter idx s).modelFault = (s.modelFault || !s.vSpecified (List.finRange 16)) :=
  ⟨scatter_upc idx s, scatter_cell_same hinj s, scatter_modelFault idx s⟩

/-- `G w` in any state. -/
theorem exec_g_runs_on (w : BitVec 3) (s : State) :
    ∃ t, exec (.g w) s = .next t ∧ t.upc = s.upc + 1 ∧ t.v = writeQuad s.v (wire w) (gfn (readQuad s (wire w))) ∧
      t.modelFault = (s.modelFault || !s.vSpecified [(wire w).a, (wire w).b, (wire w).c, (wire w).d]) :=
  ⟨_, exec_g w s, by simp, by simp, by simp⟩

/-- The lanes of an XOR unit in any state, whatever the unit has read. -/
theorem writeLanes_runs_on (lane : Fin 128 → Word) (s : State) (specified : Bool) :
    (writeLanes lane (s.noteReads specified)).advance.upc = s.upc + 1 ∧
      (∀ i, (writeLanes lane (s.noteReads specified)).advance.cellAt (zAddr i) = .word (lane i)) ∧
      (writeLanes lane (s.noteReads specified)).advance.modelFault = (s.modelFault || !specified) := by
  refine ⟨?_, fun i => ?_, ?_⟩
  · rw [State.advance_upc, writeLanes_upc, State.noteReads_upc]
  · rw [State.cellAt_advance, writeLanes_cell_same]
  · rw [State.advance_modelFault, writeLanes_modelFault, State.noteReads_modelFault]

/-- Settles O28: each micro-op that reads storage runs on from every state, and records an unspecified read. -/
theorem unspecifiedReadsRunOnFreeValues : Obligations.UnspecifiedReadsRunOnFreeValues := by
  intro s
  refine ⟨fun w => exec_g_runs_on w s, fun n => ⟨_, rfl, gather_runs_on (rowidx n) s⟩, fun n => ⟨_, rfl, gather_runs_on (colidx n) s⟩,
    fun n => ⟨_, rfl, scatter_runs_on (rowidx_injective n) s⟩, fun n => ⟨_, rfl, scatter_runs_on (colidx_injective n) s⟩,
    ⟨_, exec_xorin s, writeLanes_runs_on (xorinLane s) s _⟩, ⟨_, exec_fold s, writeLanes_runs_on (foldLane s) s _⟩,
    fun w i hi hv => ?_, fun i h => ?_⟩
  · obtain ⟨t, ht, -, -, hfault⟩ := exec_g_runs_on w s
    refine ⟨t, ht, ?_⟩
    rw [hfault, State.vSpecified_eq_false (i := i) (by simpa using hi) hv, Bool.not_false, Bool.or_true]
  · obtain ⟨-, -, hfault⟩ := writeLanes_runs_on (xorinLane s) s (inputsSpecified s)
    refine ⟨_, exec_xorin s, ?_⟩
    rw [hfault, inputsSpecified_eq_false h, Bool.not_false, Bool.or_true]

end Sys2Proof.Machine
end

section
/-! PROOFS. The micro-ops on storage that holds words: each is its function of the two blocks, the working block and the sixteen words
(40_g_mixing.md R110; 42_gather_scatter.md R143 to R146; 43_xor_fold.md R160, R161). -/

namespace Sys2Proof.Machine

@[simp] theorem getElem_wordsV (w : Vector Word 16) (i : Fin 16) : (wordsV w)[i] = .word w[i] := by simp [wordsV]

/-- Register files that agree at every register are equal. -/
theorem registers_ext {α : Type} {v w : Vector α 16} (h : ∀ i : Fin 16, v[i] = w[i]) : v = w :=
  Vector.ext fun i hi => h ⟨i, hi⟩

/-- A buffer that holds a block reads as the block's words. -/
theorem State.holds.readMem {s : State} {addr : Fin 128 → Nat} {x : Block} (h : s.holds addr x) (j : Fin 128) :
    s.readMem (addr j) = x[j] := State.readMem_of_word (h j)

theorem State.holds.specified {s : State} {addr : Fin 128 → Nat} {x : Block} (h : s.holds addr x) (j : Fin 128) :
    (s.cellAt (addr j)).specified = true := (Cell.specified_iff _).2 ⟨_, h j⟩

/-- A buffer's block stands as long as no address of the buffer changes. -/
theorem State.holds.congr {s t : State} {addr : Fin 128 → Nat} {x : Block} (h : s.holds addr x)
    (heq : ∀ j, t.cellAt (addr j) = s.cellAt (addr j)) : t.holds addr x := fun j => by rw [heq j, h j]

theorem State.readV_wordsV {s : State} {w : Vector Word 16} (h : s.v = wordsV w) (i : Fin 16) : s.readV i = w[i] :=
  State.readV_of_word (by rw [h, getElem_wordsV])

/-- A gather loads the words of its group. -/
theorem gather_holds (idx : Fin 16 → Fin 128) {s : State} {z : Block} (h : s.holds zAddr z) :
    gather idx s = { s with v := wordsV (groupWords idx z), upc := s.upc + 1 } := by
  have hv : (gather idx s).v = wordsV (groupWords idx z) := registers_ext fun i => by
    rw [gather_v, h.readMem, getElem_wordsV, getElem_groupWords]
  rw [gather_eq fun i => h.specified (idx i), hv]

@[simp] theorem scatter_v (idx : Fin 16 → Fin 128) (s : State) : (scatter idx s).v = s.v := by
  rw [scatter, State.advance_v, State.withMem_v, State.noteReads_v]

/-- A scatter replaces the words of its group. -/
theorem scatter_holds {idx : Fin 16 → Fin 128} (hinj : Function.Injective idx) {s : State} {z : Block} {w : Vector Word 16}
    (hz : s.holds zAddr z) (hv : s.v = wordsV w) : (scatter idx s).holds zAddr (scatterBlock idx z w) := by
  intro j
  by_cases hj : ∃ i, idx i = j
  · obtain ⟨i, rfl⟩ := hj
    rw [scatter_cell_same hinj, State.readV_wordsV hv, getElem_scatterBlock_same hinj]
  · have hout : ∀ i, idx i ≠ j := fun i hi => hj ⟨i, hi⟩
    rw [scatter_cell_other s fun i he => hout i (zAddr_injective he).symm, hz j, getElem_scatterBlock_other z w hout]

/-- `G w` on a register file of words is one line of the loop of R125. -/
theorem exec_g_words (w : BitVec 3) {s : State} {v : Vector Word 16} (h : s.v = wordsV v) :
    exec (.g w) s = .next { s with v := wordsV (gAt v w), upc := s.upc + 1 } := by
  have hspec : s.vSpecified [(wire w).a, (wire w).b, (wire w).c, (wire w).d] = true :=
    (s.vSpecified_iff _).2 fun i _ => (Cell.specified_iff _).2 ⟨v[i], by rw [h, getElem_wordsV]⟩
  have hread : readQuad s (wire w) = getQuad v (wire w) := by simp only [readQuad, getQuad, State.readV_wordsV h]
  have hwrite : writeQuad s.v (wire w) (gfn (getQuad v (wire w))) = wordsV (gAt v w) := registers_ext fun i => by
    rw [writeQuad_getElem, getElem_wordsV, gAt, putQuad, getElem_setWiring, h, getElem_wordsV]
    split_ifs <;> rfl
  rw [exec_g, hspec, State.noteReads_true, hread, hwrite]
  rfl

/-- What an operation works on: the block in `Z` and the words in `V`. -/
structure WorkingData where
  z : Block
  v : Vector Word 16

/-- A micro-op as a function of the working data, on the input blocks `a` and `b`. -/
def microOpData (a b : Block) (d : WorkingData) : Instr → WorkingData
  | .xorin => { d with z := xorBlock a b }
  | .ldrow n => { d with v := groupWords (rowidx n) d.z }
  | .ldcol n => { d with v := groupWords (colidx n) d.z }
  | .g w => { d with v := gAt d.v w }
  | .strow n => { d with z := scatterBlock (rowidx n) d.z d.v }
  | .stcol n => { d with z := scatterBlock (colidx n) d.z d.v }
  | .fold => { d with z := xorBlock (xorBlock d.z a) b }
  | .bar | .done | .nop | .start | .clr => d

/-- The micro-ops that write all of `V` and read none of it (R143, R144). -/
def loadsRegisters : Instr → Bool
  | .ldrow _ | .ldcol _ => true
  | _ => false

/-- `t` is `s` after a micro-op other than `DONE`, on the input blocks `a` and `b`: only `V`, the memory and `upc` have changed, the input
blocks stand, and `Z` holds `z`. -/
structure MicroOpLeaves (s t : State) (a b z : Block) : Prop where
  frame : t = { s with v := t.v, mem := t.mem, upc := s.upc + 1 }
  inputA : t.holds aAddr a
  inputB : t.holds bAddr b
  block : t.holds zAddr z

section
variable {s : State} {a b : Block} (ha : s.holds aAddr a) (hb : s.holds bAddr b)
include ha hb

theorem inputsSpecified_of_holds : inputsSpecified s = true := (inputsSpecified_iff s).2 ⟨ha.specified, hb.specified⟩

/-- A register write leaves the three blocks. -/
theorem microOpLeaves_registers {z : Block} (hz : s.holds zAddr z) (v : Vector Cell 16) :
    MicroOpLeaves s { s with v := v, upc := s.upc + 1 } a b z := ⟨rfl, ha, hb, hz⟩

theorem microOpLeaves_scatter {idx : Fin 16 → Fin 128} (hinj : Function.Injective idx) {z : Block} {w : Vector Word 16}
    (hz : s.holds zAddr z) (hv : s.v = wordsV w) : MicroOpLeaves s (scatter idx s) a b (scatterBlock idx z w) where
  frame := by
    rw [scatter_v]
    exact scatter_eq fun i => (Cell.specified_iff _).2 ⟨w[i], by rw [hv, getElem_wordsV]⟩
  inputA := ha.congr fun j => scatter_cell_other s fun i => aAddr_ne_zAddr j (idx i)
  inputB := hb.congr fun j => scatter_cell_other s fun i => bAddr_ne_zAddr j (idx i)
  block := scatter_holds hinj hz hv

theorem microOpLeaves_lanes {lane : Fin 128 → Word} {z : Block} (hlane : ∀ j, lane j = z[j]) {t : State}
    (ht : t = (writeLanes lane s).advance) : MicroOpLeaves s t a b z where
  frame := by
    have hv : t.v = s.v := by rw [ht, State.advance_v, writeLanes_v]
    have hframe : t = { s with mem := t.mem, upc := s.upc + 1 } := by
      rw [ht]
      exact advance_writeLanes_eq lane s
    rw [hv]
    exact hframe
  inputA := ha.congr fun j => by rw [ht, State.cellAt_advance, writeLanes_cell_other lane s fun i => aAddr_ne_zAddr j i]
  inputB := hb.congr fun j => by rw [ht, State.cellAt_advance, writeLanes_cell_other lane s fun i => bAddr_ne_zAddr j i]
  block := fun j => by rw [ht, State.cellAt_advance, writeLanes_cell_same, hlane]

/-- `XORIN` on two blocks (R160). -/
theorem exec_xorin_holds : ∃ t, exec .xorin s = .next t ∧ MicroOpLeaves s t a b (xorBlock a b) := by
  obtain ⟨t, ht⟩ : ∃ t, t = (writeLanes (xorinLane s) s).advance := ⟨_, rfl⟩
  refine ⟨t, ?_, microOpLeaves_lanes ha hb (fun j => ?_) ht⟩
  · rw [exec_xorin, inputsSpecified_of_holds ha hb, State.noteReads_true, ht]
  · rw [xorinLane, ha.readMem, hb.readMem, getElem_xorBlock]

/-- `FOLD` on three blocks (R161). -/
theorem exec_fold_holds {z : Block} (hz : s.holds zAddr z) :
    ∃ t, exec .fold s = .next t ∧ MicroOpLeaves s t a b (xorBlock (xorBlock z a) b) ∧ t.v = s.v := by
  obtain ⟨t, ht⟩ : ∃ t, t = (writeLanes (foldLane s) s).advance := ⟨_, rfl⟩
  refine ⟨t, ?_, microOpLeaves_lanes ha hb (fun j => ?_) ht, ?_⟩
  · rw [exec_fold, inputsSpecified_of_holds ha hb, (s.bufferSpecified_iff zAddr).2 hz.specified, Bool.and_self,
      State.noteReads_true, ht]
  · rw [foldLane, hz.readMem, ha.readMem, hb.readMem, getElem_xorBlock, getElem_xorBlock]
  · rw [ht, State.advance_v, writeLanes_v]

/-- A micro-op other than `DONE` acts on the working data as `microOpData` says, once what it reads holds words: `XORIN` reads neither `Z` nor
`V`, a load reads no register. -/
theorem exec_microOpData {d : WorkingData} {i : Instr} (hi : isMicroOp i = true) (hdone : i ≠ .done)
    (hz : i ≠ .xorin → s.holds zAddr d.z) (hv : i ≠ .xorin → loadsRegisters i = false → s.v = wordsV d.v) :
    ∃ t, exec i s = .next t ∧ MicroOpLeaves s t a b (microOpData a b d i).z ∧
      (i ≠ .xorin → t.v = wordsV (microOpData a b d i).v) := by
  cases i with
  | xorin =>
    obtain ⟨t, hexec, ht⟩ := exec_xorin_holds ha hb
    exact ⟨t, hexec, ht, fun h => absurd rfl h⟩
  | ldrow n =>
    have hz := hz nofun
    exact ⟨_, congrArg Host.Outcome.next (gather_holds (rowidx n) hz), microOpLeaves_registers ha hb hz _, fun _ => rfl⟩
  | ldcol n =>
    have hz := hz nofun
    exact ⟨_, congrArg Host.Outcome.next (gather_holds (colidx n) hz), microOpLeaves_registers ha hb hz _, fun _ => rfl⟩
  | g w =>
    have hv := hv nofun rfl
    exact ⟨_, exec_g_words w hv, microOpLeaves_registers ha hb (hz nofun) _, fun _ => rfl⟩
  | strow n =>
    have hv := hv nofun rfl
    refine ⟨scatter (rowidx n) s, rfl, microOpLeaves_scatter ha hb (rowidx_injective n) (hz nofun) hv, fun _ => ?_⟩
    rw [scatter_v, hv, microOpData]
  | stcol n =>
    have hv := hv nofun rfl
    refine ⟨scatter (colidx n) s, rfl, microOpLeaves_scatter ha hb (colidx_injective n) (hz nofun) hv, fun _ => ?_⟩
    rw [scatter_v, hv, microOpData]
  | bar => exact ⟨_, rfl, microOpLeaves_registers ha hb (hz nofun) _, fun _ => hv nofun rfl⟩
  | fold =>
    obtain ⟨t, hexec, ht, htv⟩ := exec_fold_holds ha hb (hz nofun)
    exact ⟨t, hexec, ht, fun _ => by rw [htv, hv nofun rfl, microOpData]⟩
  | done => exact absurd rfl hdone
  | nop => cases hi
  | start => cases hi
  | clr => cases hi

end

end Sys2Proof.Machine
end

section
/-! PROOFS. A run as its turns: a property that harmless turns keep and the sequencer's turns carry on holds along the run
(20_memory.md R55; 44_sequencer.md R173, R180, R185). -/

namespace Sys2Proof.Machine

theorem decodeCommand_zero : decodeCommand 0 = .ok .nop := by decide

/-- A harmless transaction is recorded at most in the replies (R180, R185). -/
theorem transact_harmless (form : Word → Reply) {tr : Transaction} (h : tr.harmless = true) (s : State) :
    ∃ rs, transact form tr s = .next { s with replies := rs } := by
  cases tr with
  | write addr d =>
    obtain ⟨rfl, rfl⟩ : addr = 0x180 ∧ d = 0 := by simpa [Transaction.harmless] using h
    have hnop : command 0 s = .next s := by
      rw [command, decodeCommand_zero]
      rfl
    have hctrl : region 0x180 = .ctrl := by decide
    refine ⟨s.replies, ?_⟩
    rw [transact, hostWrite, hctrl]
    split
    · rfl
    · exact hnop
  | read addr =>
    have haddr : addr = 0x180 ∨ addr = 0x181 ∨ addr = 0x182 := by simpa [Transaction.harmless, or_assoc] using h
    rcases haddr with rfl | rfl | rfl <;> exact ⟨_, rfl⟩

/-- A harmless turn of the host takes the turn off the list and is recorded at most in the replies. -/
theorem step_of_harmless {s : State} {e : Event} {rest : List Event} (he : s.events = e :: rest) (hharm : harmless e = true)
    (hhost : e ≠ .engine) : ∃ rs, step s = .next { s with events := rest, replies := rs } := by
  rw [step_of_events he]
  cases e with
  | engine => exact absurd rfl hhost
  | port tr => exact transact_harmless _ hharm { s with events := rest }
  | bus acc =>
    obtain ⟨tr, htr, hharm⟩ := (Option.any_eq_true _ _).1 hharm
    rw [turn, busTurn, htr]
    exact transact_harmless _ hharm { s with events := rest }
  | reset => cases hharm

/-- Along an undisturbed run: if `P k` survives whatever the host's harmless turns change, and each turn of the sequencer takes `P k` to
`P (k + 1)` as long as `k < K`, then `k` counts the sequencer's turns up to `K`. -/
theorem runSteps_of_turns {P : Nat → State → Prop} {K : Nat}
    (hhost : ∀ k s es rs, P k s → P k { s with events := es, replies := rs })
    (hengine : ∀ k s, k < K → P k s → ∃ t, sequencerTurn s = .next t ∧ t.events = s.events ∧ P (k + 1) t)
    (n k : Nat) {s : State} (hP : P k s) (hund : s.undisturbed n) (hK : k + engineTurns n s.events ≤ K) :
    ∃ t, runSteps n s = .next t ∧ P (k + engineTurns n s.events) t := by
  induction n generalizing k s with
  | zero => exact ⟨s, rfl, by simpa using hP⟩
  | succ n ih =>
    cases he : s.events with
    | nil =>
      rw [he, engineTurns_nil] at hK
      obtain ⟨t, hturn, hte, htP⟩ := hengine k s (by omega) hP
      rw [he] at hte
      obtain ⟨u, hrun, hu⟩ := ih (k + 1) htP (State.undisturbed_nil hte n) (by rw [hte, engineTurns_nil]; omega)
      rw [runSteps_succ ((step_of_no_events he).trans hturn)]
      refine ⟨u, hrun, ?_⟩
      rw [hte, engineTurns_nil, Nat.add_right_comm] at hu
      rw [engineTurns_nil]
      exact hu
    | cons e rest =>
      rw [he] at hK
      by_cases hee : e = .engine
      · subst hee
        rw [engineTurns_engine] at hK ⊢
        obtain ⟨t, hturn, hte, htP⟩ := hengine k { s with events := rest } (by omega) (hhost k s rest s.replies hP)
        have hte : t.events = rest := hte
        obtain ⟨u, hrun, hu⟩ := ih (k + 1) htP (State.undisturbed_tail hund he hte) (by rw [hte]; omega)
        rw [runSteps_succ ((step_of_events he).trans hturn)]
        refine ⟨u, hrun, ?_⟩
        rwa [hte, Nat.add_right_comm] at hu
      · rw [engineTurns_other hee] at hK ⊢
        obtain ⟨rs, hstep⟩ := step_of_harmless he (State.undisturbed_head hund he) hee
        rw [runSteps_succ hstep]
        exact ih k (hhost k s rest rs hP) (State.undisturbed_tail hund he rfl) hK

end Sys2Proof.Machine
end

section
/-! PROOFS. An operation turn by turn: after `k` turns of the sequencer the engine holds the working data of the first `k` micro-ops of
`COMPRESS` (44_sequencer.md R172, R181), and the statement of 00_scope.md R14. -/

namespace Sys2Proof.Machine

/-- The micro-program as instructions (R89, R172). -/
def program : List Instr := expandPseudo .compress

theorem program_length : program.length = 164 := by decide +kernel

theorem uromWords_decode : uromWords.map decodeUop = program.map .ok := by decide +kernel

theorem program_getElem? {k : Nat} (hk : k < 164) : ∃ i, program[k]? = some i :=
  ⟨_, List.getElem?_eq_getElem (by rw [program_length]; exact hk)⟩

/-- What every step of the run but the last rests on: a micro-op other than `DONE`; `XORIN` first and nowhere else; then a load. -/
theorem program_shape : ∀ k < 163, ∀ i ∈ program[k]?, isMicroOp i = true ∧ i ≠ .done ∧ (i = .xorin ↔ k = 0) ∧
    (k = 1 → loadsRegisters i = true) := by decide +kernel

theorem program_last : program[163]? = some .done := by decide +kernel

/-- The fetch at index `k` of the micro-program. -/
theorem engineStep_program {s : State} {k : Nat} {i : Instr} (hrom : s.urom = uromWords) (hupc : s.upc = BitVec.ofNat 8 k)
    (hk : k < 164) (hi : program[k]? = some i) : engineStep s = exec i s := by
  have hindex : s.upc.toNat = k := by rw [hupc, BitVec.toNat_ofNat, Nat.mod_eq_of_lt (by omega)]
  have hdecode : uromWords[k]?.map decodeUop = some (.ok i) := by
    rw [← List.getElem?_map, uromWords_decode, List.getElem?_map, hi, Option.map_some]
  obtain ⟨u, hfetch, hu⟩ := Option.map_eq_some_iff.1 hdecode
  rw [engineStep, fetch, hrom, hindex, hfetch]
  simp only [hu]

/-- The working data after the first `k` micro-ops on the blocks `a` and `b`. The zeros it starts from are read by no micro-op. -/
def dataAfter (a b : Block) (k : Nat) : WorkingData :=
  (program.take k).foldl (microOpData a b) ⟨Vector.replicate 128 0, Vector.replicate 16 0⟩

theorem dataAfter_succ (a b : Block) {k : Nat} {i : Instr} (hi : program[k]? = some i) :
    dataAfter a b (k + 1) = microOpData a b (dataAfter a b k) i := by
  rw [dataAfter, List.take_add_one, hi, List.foldl_append]
  rfl

/-- The state after `k` turns of the sequencer of an operation on `a` and `b`. `Z` has a value from the first on, `V` from the second on. -/
structure State.InOperation (s : State) (a b : Block) (k : Nat) : Prop where
  microprogram : s.urom = uromWords
  control : k < 164 ∧ s.phase = .busy ∧ s.upc = BitVec.ofNat 8 k ∨ k = 164 ∧ s.phase = .done ∧ s.upc = 0
  inputA : s.holds aAddr a
  inputB : s.holds bAddr b
  block : 1 ≤ k → s.holds zAddr (dataAfter a b k).z
  registers : 2 ≤ k → s.v = wordsV (dataAfter a b k).v

theorem State.Started.inOperation {s : State} {a b : Block} (h : s.Started a b) : s.InOperation a b 0 where
  microprogram := h.microprogram
  control := .inl ⟨by decide, h.busy, h.entry⟩
  inputA := h.inputA
  inputB := h.inputB
  block := fun hk => absurd hk (by decide)
  registers := fun hk => absurd hk (by decide)

theorem State.InOperation.hostTurn {s : State} {a b : Block} {k : Nat} (h : s.InOperation a b k) (es : List Event) (rs : List Reply) :
    State.InOperation { s with events := es, replies := rs } a b k :=
  ⟨h.microprogram, h.control, h.inputA, h.inputB, h.block, h.registers⟩

theorem State.InOperation.running {s : State} {a b : Block} {k : Nat} (h : s.InOperation a b k) (hk : k < 164) :
    s.phase = .busy ∧ s.upc = BitVec.ofNat 8 k := by
  rcases h.control with ⟨-, hrun⟩ | ⟨hend, -⟩
  · exact hrun
  · omega

/-- At 164 turns the operation has ended (R181). -/
theorem State.InOperation.ended {s : State} {a b : Block} (h : s.InOperation a b 164) : s.phase = .done ∧ s.upc = 0 := by
  rcases h.control with ⟨hlt, -⟩ | ⟨-, hend⟩
  · omega
  · exact hend

/-- In the operation the sequencer's turn is the micro-op at index `k`. -/
theorem State.InOperation.sequencerTurn_eq {s : State} {a b : Block} {k : Nat} {i : Instr} (h : s.InOperation a b k) (hk : k < 164)
    (hi : program[k]? = some i) : sequencerTurn s = exec i s := by
  obtain ⟨hbusy, hupc⟩ := h.running hk
  rw [← engineStep_program h.microprogram hupc hk hi, sequencerTurn, hbusy]

/-- One turn of the sequencer before the last: the micro-op changes `V`, the memory and `upc` only. -/
theorem State.InOperation.microOp {s : State} {a b : Block} {k : Nat} (h : s.InOperation a b k) (hk : k < 163) :
    ∃ t, sequencerTurn s = .next t ∧ t = { s with v := t.v, mem := t.mem, upc := t.upc, phase := t.phase } ∧
      t.InOperation a b (k + 1) := by
  obtain ⟨hbusy, hupc⟩ := h.running (by omega)
  obtain ⟨i, hi⟩ := program_getElem? (k := k) (by omega)
  obtain ⟨hmicro, hdone, hxorin, hload⟩ := program_shape k hk i hi
  have hblock : i ≠ .xorin → s.holds zAddr (dataAfter a b k).z := fun hne =>
    h.block (Nat.one_le_iff_ne_zero.2 fun h0 => hne (hxorin.2 h0))
  have hregisters : i ≠ .xorin → loadsRegisters i = false → s.v = wordsV (dataAfter a b k).v := fun hne hnoload => by
    have hk0 : k ≠ 0 := fun h0 => hne (hxorin.2 h0)
    have hk1 : k ≠ 1 := fun h1 => Bool.false_ne_true (hnoload.symm.trans (hload h1))
    exact h.registers (by omega)
  obtain ⟨t, hexec, ⟨hframe, ha, hb, hz⟩, hv⟩ := exec_microOpData h.inputA h.inputB hmicro hdone hblock hregisters
  rw [← dataAfter_succ a b hi] at hz hv
  have htupc : t.upc = s.upc + 1 := by rw [hframe]
  have htphase : t.phase = s.phase := by rw [hframe]
  have hturom : t.urom = s.urom := by rw [hframe]
  refine ⟨t, (h.sequencerTurn_eq (by omega) hi).trans hexec, ?_, ?_⟩
  · rw [htupc, htphase]
    exact hframe
  · refine ⟨hturom.trans h.microprogram, .inl ⟨by omega, htphase.trans hbusy, ?_⟩, ha, hb, fun _ => hz, fun hk2 => hv fun hx => ?_⟩
    · rw [htupc, hupc, BitVec.ofNat_add]
      rfl
    · have hk0 := hxorin.1 hx
      omega

/-- The last turn, `DONE` (R175). -/
theorem State.InOperation.done {s : State} {a b : Block} (h : s.InOperation a b 163) :
    ∃ t, sequencerTurn s = .next t ∧ t = { s with v := t.v, mem := t.mem, upc := t.upc, phase := t.phase } ∧
      t.InOperation a b 164 := by
  have hdata : dataAfter a b 164 = dataAfter a b 163 := by rw [dataAfter_succ a b program_last, microOpData]
  refine ⟨{ s with phase := .done, upc := 0 }, h.sequencerTurn_eq (by decide) program_last, rfl, h.microprogram,
    .inr ⟨rfl, rfl, rfl⟩, h.inputA, h.inputB, fun _ => ?_, fun _ => ?_⟩
  · rw [hdata]
    exact h.block (by decide)
  · rw [hdata]
    exact h.registers (by decide)

/-- Each of the 164 turns of the sequencer. -/
theorem State.InOperation.engineTurn {s : State} {a b : Block} {k : Nat} (h : s.InOperation a b k) (hk : k < 164) :
    ∃ t, sequencerTurn s = .next t ∧ t = { s with v := t.v, mem := t.mem, upc := t.upc, phase := t.phase } ∧
      t.InOperation a b (k + 1) := by
  rcases Nat.lt_or_eq_of_le (Nat.le_of_lt_succ hk) with hlt | rfl
  · exact h.microOp hlt
  · exact h.done

/-- A run from an admitted start, up to its end. -/
theorem State.Started.run {s : State} {a b : Block} (h : s.Started a b) {n : Nat} (hund : s.undisturbed n)
    (hn : engineTurns n s.events ≤ 164) : ∃ t, runSteps n s = .next t ∧ t.InOperation a b (engineTurns n s.events) := by
  obtain ⟨t, hrun, ht⟩ := runSteps_of_turns (P := fun k s => s.InOperation a b k) (K := 164)
    (fun _ _ es rs h => h.hostTurn es rs)
    (fun k s hk h => by
      obtain ⟨t, hturn, hframe, ht⟩ := h.engineTurn hk
      exact ⟨t, hturn, by rw [hframe], ht⟩)
    n 0 h.inOperation hund (by omega)
  exact ⟨t, hrun, by rwa [Nat.zero_add] at ht⟩

/-- Settles O57: at the end of any such run `Z` holds the working block of the whole micro-program, which `a` and `b` determine. -/
theorem resultDependsOnTheBlocksOnly : Obligations.ResultDependsOnTheBlocksOnly := by
  intro s s' a b n n' hs hs' hund hund' hn hn'
  obtain ⟨t, hrun, ht⟩ := hs.run hund hn.le
  obtain ⟨t', hrun', ht'⟩ := hs'.run hund' hn'.le
  rw [hn] at ht
  rw [hn'] at ht'
  refine ⟨t, t', hrun, hrun', ht.ended.1, ht'.ended.1, fun j => ?_⟩
  rw [ht.block (by decide) j, ht'.block (by decide) j]

end Sys2Proof.Machine
end

section
/-! PROOFS. What every micro-op leaves alone, in every state (10_state.md R24, R34, R35, R40). -/

namespace Sys2Proof.Machine

/-- What the micro-op `i` leaves of `s` in `t`, whether or not what it read had a value: the host's side of the engine is unchanged, only words of
`Z` are written, and a micro-op other than `DONE` stays in its phase and advances `upc`. -/
structure MicroOpFrame (i : Instr) (s t : State) : Prop where
  writtenA : t.wa = s.wa
  writtenB : t.wb = s.wb
  errinfo : t.errinfo = s.errinfo
  microprogram : t.urom = s.urom
  turns : t.events = s.events
  replies : t.replies = s.replies
  memory : ∃ ws : List (Nat × Word), (∀ p ∈ ws, ∃ j, p.1 = zAddr j) ∧ t.mem = s.mem.writeAll ws
  control : i ≠ .done → t.phase = s.phase ∧ t.upc = s.upc + 1

/-- The form of every micro-op but `DONE`: some registers and some words of `Z` written, `upc` advanced. -/
theorem microOpFrame_of_writes (i : Instr) (s : State) (specified : Bool) (v : Vector Cell 16) {ws : List (Nat × Word)}
    (hws : ∀ p ∈ ws, ∃ j, p.1 = zAddr j) :
    MicroOpFrame i s (((s.noteReads specified).withV v).withMem (s.mem.writeAll ws)).advance where
  writtenA := by simp
  writtenB := by simp
  errinfo := by simp
  microprogram := by simp
  turns := by simp
  replies := by simp
  memory := ⟨ws, hws, rfl⟩
  control _ := by simp

/-- The micro-ops that write `V` write no memory. -/
theorem microOpFrame_registers (i : Instr) (s : State) (specified : Bool) (v : Vector Cell 16) :
    MicroOpFrame i s ((s.noteReads specified).withV v).advance := by
  have hform := microOpFrame_of_writes i s specified v (ws := []) nofun
  rwa [Memory.writeAll_nil, ← State.noteReads_mem s specified] at hform

/-- The micro-ops that write `Z` write no register. -/
theorem microOpFrame_block {n : Nat} (i : Instr) (s : State) (specified : Bool) (idx : Fin n → Fin 128) (w : Fin n → Word) :
    MicroOpFrame i s
      ((s.noteReads specified).withMem (s.mem.writeAll ((List.finRange n).map fun k => (zAddr (idx k), w k)))).advance := by
  have hform := microOpFrame_of_writes i s specified s.v (ws := (List.finRange n).map fun k => (zAddr (idx k), w k))
    fun p hp => by
      obtain ⟨k, -, rfl⟩ := List.mem_map.1 hp
      exact ⟨idx k, rfl⟩
  rwa [← State.noteReads_v s specified] at hform

theorem microOpFrame_lanes (i : Instr) (s : State) (specified : Bool) (lane : Fin 128 → Word) :
    MicroOpFrame i s (writeLanes lane (s.noteReads specified)).advance := by
  rw [writeLanes, State.noteReads_mem]
  exact microOpFrame_block i s specified id lane

/-- Every micro-op, in every state, answers a next state within its frame. -/
theorem exec_microOp_next {i : Instr} (hi : isMicroOp i = true) (s : State) : ∃ t, exec i s = .next t ∧ MicroOpFrame i s t := by
  cases i with
  | xorin => exact ⟨_, exec_xorin s, microOpFrame_lanes _ s _ _⟩
  | ldrow n => exact ⟨_, rfl, microOpFrame_registers _ s _ _⟩
  | ldcol n => exact ⟨_, rfl, microOpFrame_registers _ s _ _⟩
  | g w => exact ⟨_, exec_g w s, microOpFrame_registers _ s _ _⟩
  | strow n => exact ⟨_, rfl, microOpFrame_block _ s _ (rowidx n) s.readV⟩
  | stcol n => exact ⟨_, rfl, microOpFrame_block _ s _ (colidx n) s.readV⟩
  | bar => exact ⟨_, rfl, rfl, rfl, rfl, rfl, rfl, rfl, ⟨[], nofun, rfl⟩, fun _ => ⟨rfl, rfl⟩⟩
  | fold => exact ⟨_, exec_fold s, microOpFrame_lanes _ s _ _⟩
  | done => exact ⟨_, rfl, rfl, rfl, rfl, rfl, rfl, rfl, ⟨[], nofun, rfl⟩, fun h => absurd rfl h⟩
  | nop => cases hi
  | start => cases hi
  | clr => cases hi

theorem exec_microOp_frame {i : Instr} (hi : isMicroOp i = true) {s t : State} (h : exec i s = .next t) : MicroOpFrame i s t := by
  obtain ⟨t', ht', hframe⟩ := exec_microOp_next hi s
  obtain rfl : t' = t := Host.Outcome.next.inj (ht'.symm.trans h)
  exact hframe

/-- A micro-op leaves every address outside `Z` alone. -/
theorem MicroOpFrame.cellAt_other {i : Instr} {s t : State} (h : MicroOpFrame i s t) {a : Nat} (ha : ∀ j, a ≠ zAddr j) :
    t.cellAt a = s.cellAt a := by
  obtain ⟨ws, hws, hmem⟩ := h.memory
  rw [State.cellAt, hmem, Memory.cell_writeAll_other, State.cellAt]
  intro p hp
  obtain ⟨j, hj⟩ := hws p hp
  exact hj ▸ ha j

theorem MicroOpFrame.cellAt_inputs {i : Instr} {s t : State} (h : MicroOpFrame i s t) (j : Fin 128) :
    t.cellAt (aAddr j) = s.cellAt (aAddr j) ∧ t.cellAt (bAddr j) = s.cellAt (bAddr j) :=
  ⟨h.cellAt_other fun k => aAddr_ne_zAddr j k, h.cellAt_other fun k => bAddr_ne_zAddr j k⟩

/-- Settles O30: every micro-op stays in its frame, which writes words of `Z` only. -/
theorem microOpsKeepTheInputs : Obligations.MicroOpsKeepTheInputs := by
  intro i s t hi h
  have hframe := exec_microOp_frame hi h
  exact ⟨hframe.cellAt_inputs, hframe.writtenA, hframe.writtenB, hframe.errinfo, hframe.microprogram, hframe.turns, hframe.replies⟩

end Sys2Proof.Machine
end

section
/-! PROOFS. The host commands and their words, by cases (30_encoding.md R87; 44_sequencer.md R177 to R179), and the course of `upc`
(10_state.md R24). -/

namespace Sys2Proof.Machine

/-- `START`: no effect in FAULT, an operation begun, or a fault. -/
theorem exec_start_cases {s t : State} (h : exec .start s = .next t) :
    (s.phase = .fault ∧ t = s) ∨
    (s.phase = .idle ∧ s.wa = allWritten ∧ s.wb = allWritten ∧ t = { s with v := unspecifiedV, phase := .busy, upc := 0 }) ∨
    ∃ code, code ≠ .uop ∧ t = raiseFault code 0x180 s := by
  rw [exec, execStart] at h
  cases hp : s.phase with
  | idle =>
    simp only [hp] at h
    split at h
    · next hwritten => exact .inr (.inl ⟨rfl, hwritten.1, hwritten.2, (Host.Outcome.next.inj h).symm⟩)
    · exact .inr (.inr ⟨.precond, nofun, (Host.Outcome.next.inj h).symm⟩)
  | busy => simp only [hp] at h; exact .inr (.inr ⟨.cmd, nofun, (Host.Outcome.next.inj h).symm⟩)
  | done => simp only [hp] at h; exact .inr (.inr ⟨.cmd, nofun, (Host.Outcome.next.inj h).symm⟩)
  | fault => simp only [hp] at h; exact .inl ⟨rfl, (Host.Outcome.next.inj h).symm⟩

/-- `CLR`: no effect in FAULT, the blocks given up, or a fault. -/
theorem exec_clr_cases {s t : State} (h : exec .clr s = .next t) :
    (s.phase = .fault ∧ t = s) ∨
    ((s.phase = .idle ∨ s.phase = .done) ∧ t = { s.dropData with phase := .idle, upc := 0, wa := 0, wb := 0 }) ∨
    t = raiseFault .cmd 0x180 s := by
  rw [exec, execClr] at h
  cases hp : s.phase with
  | idle => simp only [hp] at h; exact .inr (.inl ⟨.inl rfl, (Host.Outcome.next.inj h).symm⟩)
  | busy => simp only [hp] at h; exact .inr (.inr (Host.Outcome.next.inj h).symm)
  | done => simp only [hp] at h; exact .inr (.inl ⟨.inr rfl, (Host.Outcome.next.inj h).symm⟩)
  | fault => simp only [hp] at h; exact .inl ⟨rfl, (Host.Outcome.next.inj h).symm⟩

/-- A command word is its two fields, the reserved bits above `CMD` (R28). -/
theorem commandWord_eq_append (d : Word) : d = (hcmdFields d).reserved ++ (hcmdFields d).cmd :=
  (BitVec.extractLsb'_append_extractLsb' (w := 62) (len := 2) (x := d)).symm

theorem decodeHcmd64_cases {f : Hcmd64} {i : Instr} (h : decodeHcmd64 f = .ok i) :
    f.reserved = 0 ∧ ((i = .nop ∧ f.cmd = 0) ∨ (i = .start ∧ f.cmd = 1) ∨ (i = .clr ∧ f.cmd = 2)) := by
  have hlast : ∀ c : BitVec 2, c ≠ 3 → c ≠ 0 → c ≠ 1 → c = 2 := by decide
  unfold decodeHcmd64 at h
  split_ifs at h with hres hthree hzero hone <;> cases h
  · exact ⟨not_not.1 hres, .inl ⟨rfl, hzero⟩⟩
  · exact ⟨not_not.1 hres, .inr (.inl ⟨rfl, hone⟩)⟩
  · exact ⟨not_not.1 hres, .inr (.inr ⟨rfl, hlast f.cmd hthree hzero hone⟩)⟩

/-- The three legal command words. -/
theorem decodeCommand_cases {d : Word} {i : Instr} (h : decodeCommand d = .ok i) :
    (i = .nop ∧ d = 0) ∨ (i = .start ∧ d = 1) ∨ (i = .clr ∧ d = 2) := by
  obtain ⟨hres, hcmd⟩ := decodeHcmd64_cases h
  have hword := commandWord_eq_append d
  rw [hres] at hword
  rcases hcmd with ⟨hi, hcmd⟩ | ⟨hi, hcmd⟩ | ⟨hi, hcmd⟩ <;> rw [hcmd] at hword
  · exact .inl ⟨hi, hword⟩
  · exact .inr (.inl ⟨hi, hword⟩)
  · exact .inr (.inr ⟨hi, hword⟩)

theorem uromWords_length : uromWords.length = 164 := by
  rw [← List.length_map (f := decodeUop), uromWords_decode, List.length_map, program_length]

theorem fetch_past_end {s : State} (hrom : s.urom = uromWords) (h : 163 < s.upc.toNat) : fetch s = none := by
  rw [fetch, hrom]
  exact List.getElem?_eq_none (by rw [uromWords_length]; exact h)

/-- Settles O29: a micro-op's course of `upc` is part of its frame; `START` and fault entry by their cases; past 163 the fetch finds nothing. -/
theorem upcAdvancesByOneOrRestarts : Obligations.UpcAdvancesByOneOrRestarts := by
  refine ⟨fun i s hi hdone => ?_, fun s => ⟨_, rfl, rfl⟩, fun s t h hs ht => ?_, raiseFault_upc, fun s hrom _ hupc => ?_⟩
  · obtain ⟨t, ht, hframe⟩ := exec_microOp_next hi s
    exact ⟨t, ht, (hframe.control hdone).2⟩
  · rcases exec_start_cases h with ⟨-, rfl⟩ | ⟨-, -, -, rfl⟩ | ⟨code, -, rfl⟩
    · exact absurd ht hs
    · rfl
    · rw [raiseFault_phase] at ht
      cases ht
  · rw [engineStep, fetch_past_end hrom hupc]

end Sys2Proof.Machine
end

section
/-! PROOFS. The registers the host reads: STATUS (10_state.md R29), ERRINFO (R30), and the state after reset (R42). -/

namespace Sys2Proof.Machine

theorem statusWord_eq (s : State) :
    statusWord s = match s.phase with | .idle => 0 | .busy => 1 | .done => 2 | .fault => 4 := by
  rw [statusWord, errOut, doneOut, busyOut]
  cases s.phase <;> rfl

theorem statusBits : ∀ err done busy : Bool,
    let status := 0#61 ++ (BitVec.ofBool err ++ (BitVec.ofBool done ++ BitVec.ofBool busy))
    status.getLsbD 0 = busy ∧ status.getLsbD 1 = done ∧ status.getLsbD 2 = err := by decide

/-- Settles O37: a read and a write at 0x181 by the port's rule, the value by the phase, the three bits as they are put together. -/
theorem statusIsAViewOfThePhase : Obligations.StatusIsAViewOfThePhase := by
  refine ⟨statusWord_eq State.reset, fun s => ?_⟩
  obtain ⟨hbusy, hdone, herr⟩ := statusBits (errOut s) (doneOut s) (busyOut s)
  refine ⟨fun rest he => ?_, fun d rest he hs => ?_, statusWord_eq s, hbusy, hdone, herr, beq_iff_eq, beq_iff_eq, beq_iff_eq⟩
  · rw [step_of_events he]
    rfl
  · rw [step_of_events he]
    exact if_neg hs

/-- The parts of an ERRINFO word, at the width of their sum. -/
theorem errinfoParts (code : BitVec 4) (upc : BitVec 8) (addr : BitVec 9) :
    let parts := 0#39 ++ (addr ++ (upc ++ (0#4 ++ code)))
    parts.extractLsb' 0 4 = code ∧ parts.extractLsb' 8 8 = upc ∧ parts.extractLsb' 16 9 = addr ∧
      parts.extractLsb' 4 4 = 0 ∧ parts.extractLsb' 25 39 = 0 := by
  intro parts
  unfold parts
  simp [-Nat.reduceAdd, BitVec.extractLsb'_append_eq_of_le, BitVec.extractLsb'_append_eq_of_add_le]

/-- Settles O38: each field is one part of the word. -/
theorem errinfoFieldsStandAtTheirBits : Obligations.ErrinfoFieldsStandAtTheirBits := errinfoParts

/-- Settles O46: each field as `State.reset` lists it, and a step of it is the sequencer's quiet turn. -/
theorem resetStateIsAsListed : Obligations.ResetStateIsAsListed := by
  refine ⟨rfl, rfl, statusWord_eq State.reset, rfl, rfl, rfl, fun i => ?_, Memory.cell_nil, rfl, rfl, rfl⟩
  exact Vector.getElem_replicate i.isLt

end Sys2Proof.Machine
end

section
/-! PROOFS. The transitions of `PHASE`, each with its cause (10_state.md R25). -/

namespace Sys2Proof.Machine

theorem addr_of_region_ctrl {addr : HostAddr} (h : region addr = .ctrl) : addr = 0x180 := by
  unfold region at h
  split_ifs at h with hA hB hZ hctrl
  exact BitVec.eq_of_toNat_eq hctrl

/-- None of the 256 micro-words decodes to a host command (R81). -/
theorem decodeUop_all_microOp : ∀ u : MicroWord, (decodeUop u).toOption.all isMicroOp = true := by decide

theorem isMicroOp_of_decodeUop {u : MicroWord} {i : Instr} (h : decodeUop u = .ok i) : isMicroOp i = true := by
  have hall := decodeUop_all_microOp u
  rwa [h] at hall

/-- A turn is the write of `d` at `addr`, at the port or over the bus (R53). -/
def Event.writes (e : Event) (addr : HostAddr) (d : Word) : Prop :=
  e = .port (.write addr d) ∨ ∃ b, e = .bus b ∧ adapt b = some (.write addr d)

/-- A transition of R25 from `s` to `t` with its cause: the turn `e`, the micro-op fetched, or the fault recorded. -/
inductive PhaseMove (e : Event) (s t : State) : Prop where
  | stay (hto : t.phase = s.phase)
  | fault (hto : t.phase = .fault) (hrecord : ∃ code addr, t.errinfo = errinfoWord (faultCodeBits code) s.upc addr)
  | start (hfrom : s.phase = .idle) (hto : t.phase = .busy) (hcause : e.writes 0x180 1)
  | done (hfrom : s.phase = .busy) (hto : t.phase = .done) (hupc : t.upc = 0)
      (hcause : ∃ u, fetch s = some u ∧ decodeUop u = .ok .done)
  | clr (hfrom : s.phase = .done) (hto : t.phase = .idle) (hcause : e.writes 0x180 2)
  | reset (hto : t.phase = .idle) (hcause : e = .reset)

/-- Fault entry, and whatever keeps its phase and its record. -/
theorem PhaseMove.of_raiseFault {e : Event} {s t : State} {code : FaultCode} {addr : HostAddr}
    (hphase : t.phase = (raiseFault code addr s).phase) (hinfo : t.errinfo = (raiseFault code addr s).errinfo) :
    PhaseMove e s t := by
  rw [raiseFault_phase] at hphase
  by_cases hs : s.phase = .fault
  · exact .stay (hphase.trans hs.symm)
  · exact .fault hphase ⟨code, addr, by rw [hinfo, raiseFault_entry hs]⟩

theorem sequencerTurn_phaseMove {e : Event} {s t : State} (h : sequencerTurn s = .next t) : PhaseMove e s t := by
  rcases sequencerTurn_cases h with ⟨-, rfl⟩ | ⟨-, rfl, -⟩ | ⟨hbusy, u, i, hfetch, hdecode, hexec⟩
  · exact .stay rfl
  · exact .of_raiseFault rfl rfl
  · by_cases hdone : i = .done
    · subst hdone
      obtain rfl := Host.Outcome.next.inj hexec
      exact .done hbusy rfl rfl ⟨u, hfetch, hdecode⟩
    · exact .stay ((exec_microOp_frame (isMicroOp_of_decodeUop hdecode) hexec).control hdone).1

/-- A command: only `START` and `CLR` move the phase. -/
theorem command_phaseMove {e : Event} {d : Word} {i : Instr} {s t : State} (he : e.writes 0x180 d) (hd : decodeCommand d = .ok i)
    (h : exec i s = .next t) : PhaseMove e s t := by
  rcases decodeCommand_cases hd with ⟨rfl, rfl⟩ | ⟨rfl, rfl⟩ | ⟨rfl, rfl⟩
  · obtain rfl := Host.Outcome.next.inj h
    exact .stay rfl
  · rcases exec_start_cases h with ⟨-, rfl⟩ | ⟨hidle, -, -, rfl⟩ | ⟨code, -, rfl⟩
    · exact .stay rfl
    · exact .start hidle rfl he
    · exact .of_raiseFault rfl rfl
  · rcases exec_clr_cases h with ⟨-, rfl⟩ | ⟨hidle | hdone, rfl⟩ | rfl
    · exact .stay rfl
    · exact .stay hidle.symm
    · exact .clr hdone rfl he
    · exact .of_raiseFault rfl rfl

theorem hostWrite_phaseMove {e : Event} {addr : HostAddr} {d : Word} {s t : State} (he : e.writes addr d)
    (h : hostWrite addr d s = .next t) : PhaseMove e s t := by
  rcases hostWrite_cases h with ⟨-, rfl⟩ | ⟨-, j, -, rfl⟩ | ⟨-, j, -, rfl⟩ | ⟨-, -, rfl⟩ | ⟨-, -, -, rfl⟩ | ⟨-, hctrl, i, hd, hexec⟩
  · exact .stay rfl
  · exact .stay rfl
  · exact .stay rfl
  · exact .of_raiseFault rfl rfl
  · exact .of_raiseFault rfl rfl
  · rw [addr_of_region_ctrl hctrl] at he
    exact command_phaseMove he hd hexec

theorem hostRead_phaseMove {e : Event} (addr : HostAddr) (r : Reply) (s : State) : PhaseMove e s ((hostRead addr s).2.reply r) := by
  rcases hostRead_cases addr s with hread | ⟨-, j, -, hread⟩ | hread <;> rw [hread]
  · exact .stay rfl
  · exact .stay (by simp)
  · exact .of_raiseFault rfl rfl

theorem turn_phaseMove {e : Event} {s t : State} (h : turn e s = .next t) : PhaseMove e s t := by
  rcases turn_cases h with ⟨-, h⟩ | ⟨addr, d, he, h⟩ | ⟨addr, r, -, rfl⟩ | ⟨he, rfl⟩
  · exact sequencerTurn_phaseMove h
  · exact hostWrite_phaseMove he h
  · exact hostRead_phaseMove addr r s
  · exact .reset rfl he

/-- The turn that a step takes is pending, unless it is the sequencer's own. -/
theorem events_eq_cons {s : State} (h : s.events.headD .engine ≠ .engine) : ∃ rest, s.events = s.events.headD .engine :: rest := by
  cases he : s.events with
  | nil => exact absurd (by rw [he]; rfl) h
  | cons e rest => exact ⟨rest, rfl⟩

theorem Event.writes.ne_engine {e : Event} {addr : HostAddr} {d : Word} (h : e.writes addr d) : e ≠ .engine := by
  rcases h with rfl | ⟨b, rfl, -⟩ <;> nofun

/-- Settles O50: each transition of a step, and the phases it goes between. -/
theorem phaseChangesOnlyAsListed : Obligations.PhaseChangesOnlyAsListed := by
  refine ⟨⟨rfl, rfl, rfl, rfl⟩, fun s t h => ?_⟩
  rw [step_eq_turn] at h
  cases turn_phaseMove h with
  | stay hto => exact ⟨fun ht => .inl (hto ▸ ht), fun ht => .inl (hto ▸ ht), fun ht => .inl (hto ▸ ht), fun ht => .inl (hto ▸ ht)⟩
  | fault hto hrecord =>
    rw [hto]
    exact ⟨fun _ => .inr hrecord, nofun, nofun, nofun⟩
  | start hfrom hto hcause =>
    obtain ⟨rest, he⟩ := events_eq_cons hcause.ne_engine
    rw [hto]
    exact ⟨nofun, fun _ => .inr ⟨hfrom, _, rest, he, hcause⟩, nofun, nofun⟩
  | done hfrom hto hupc hcause =>
    rw [hto]
    exact ⟨nofun, nofun, fun _ => .inr ⟨hfrom, hupc, hcause⟩, nofun⟩
  | clr hfrom hto hcause =>
    obtain ⟨rest, he⟩ := events_eq_cons hcause.ne_engine
    rw [hto]
    exact ⟨nofun, nofun, nofun, fun _ => .inr (.inr ⟨hfrom, _, rest, he, hcause⟩)⟩
  | reset hto hcause =>
    obtain ⟨rest, he⟩ := events_eq_cons (s := s) (by rw [hcause]; nofun)
    rw [hto]
    exact ⟨nofun, nofun, nofun, fun _ => .inr (.inl ⟨rest, hcause ▸ he⟩)⟩

end Sys2Proof.Machine
end

section
/-! PROOFS. The invariant of the hardware's states (`State.Inv`), turn by turn (10_state.md R22, R23, R30, R36, R37, R39; 44_sequencer.md R177,
R186; 60_exceptions.md R204). -/

namespace Sys2Proof.Machine

/-- What is specified after one write. -/
theorem Memory.specified_write (m : Memory) (a b : Nat) (w : Word) :
    ((m.write a w).cell b).specified = ((m.cell b).specified || b == a) := by
  rw [Memory.cell_write]
  by_cases hb : b = a <;> simp [hb, Cell.specified]

/-- The words read from a buffer. -/
def State.readBlock (s : State) (addr : Fin 128 → Nat) : Block := Vector.ofFn fun j => s.readMem (addr j)

/-- A buffer of which every word is specified holds the block read from it. -/
theorem State.holds_readBlock {s : State} {addr : Fin 128 → Nat} (h : ∀ j, (s.cellAt (addr j)).specified = true) :
    s.holds addr (s.readBlock addr) := fun j => by
  rw [State.cellAt_of_specified (h j)]
  simp [State.readBlock]

/-- Registers that are all specified hold the words read from them. -/
theorem State.v_eq_wordsV {s : State} (h : ∀ i : Fin 16, (s.v[i]).specified = true) : s.v = wordsV (Vector.ofFn s.readV) :=
  registers_ext fun i => by
    rw [State.v_of_specified (h i), getElem_wordsV]
    simp

/-- Settles O53: the reset state is quiet, without a record, without a written word and without data. -/
theorem invariantHoldsAfterReset : Obligations.InvariantHoldsAfterReset where
  memCanonical := reset_mem_wf
  memInBuffers := nofun
  uromIntact := rfl
  upcLegal := by decide
  upcQuiet _ := rfl
  noRecord _ := rfl
  record := nofun
  inputsTracked _ j := by simp [State.reset, State.cellAt, Cell.specified]
  inputsComplete := nofun
  idleData _ := ⟨rfl, fun _ => rfl⟩
  faultData := nofun
  workingBlock := nofun
  workingRegisters := nofun
  resultBlock := nofun
  noModelFault := rfl

namespace State.Inv

/-- The invariant says nothing of the pending turns, the replies and the counter of free values. -/
theorem bookkeeping {s : State} (h : s.Inv) (es : List Event) (rs : List Reply) (k : Nat) :
    State.Inv { s with events := es, replies := rs, draws := k } :=
  { h with }

/-- Reset, in any phase (R230). -/
theorem resetEvent {s : State} (h : s.Inv) : (resetEvent s).Inv where
  memCanonical := Memory.wf_nil
  memInBuffers := nofun
  uromIntact := h.uromIntact
  upcLegal := Nat.zero_le 163
  upcQuiet _ := rfl
  noRecord _ := rfl
  record := nofun
  inputsTracked _ j := by simp [State.cellAt, Cell.specified]
  inputsComplete := nofun
  idleData _ := ⟨rfl, fun _ => rfl⟩
  faultData := nofun
  workingBlock := nofun
  workingRegisters := nofun
  resultBlock := nofun
  noModelFault := h.noModelFault

/-- Fault entry with a code other than UOP (R204). -/
theorem raiseFault {s : State} (h : s.Inv) (code : FaultCode) (hcode : code ≠ .uop) (addr : HostAddr) :
    (raiseFault code addr s).Inv := by
  by_cases hs : s.phase = .fault
  · rwa [raiseFault_fault hs]
  rw [raiseFault_entry hs]
  exact {
    memCanonical := Memory.wf_nil
    memInBuffers := nofun
    uromIntact := h.uromIntact
    upcLegal := h.upcLegal
    upcQuiet := nofun
    noRecord := fun hp => absurd rfl hp
    record := fun _ => ⟨code, addr, hcode, rfl⟩
    inputsTracked := fun hp => absurd rfl hp
    inputsComplete := nofun
    idleData := nofun
    faultData := fun _ => ⟨rfl, rfl⟩
    workingBlock := nofun
    workingRegisters := nofun
    resultBlock := nofun
    noModelFault := h.noModelFault }

/-- A host write to a word of `A` or `B` in IDLE, once the written-bits follow it (R39, R40). -/
theorem store {s : State} (h : s.Inv) (hidle : s.phase = .idle) {a : Nat} (ha : a < 0x100) (d : Word) {wa wb : BitVec 128}
    (htracked : ∀ j : Fin 128, ((s.cellAt (aAddr j)).specified || aAddr j == a) = wa.getLsbD j ∧
      ((s.cellAt (bAddr j)).specified || bAddr j == a) = wb.getLsbD j) :
    State.Inv { s with mem := s.mem.write a d, wa := wa, wb := wb } where
  memCanonical := Memory.wf_write a d h.memCanonical
  memInBuffers p hp := by
    rcases Memory.mem_write hp with rfl | hp
    · exact Nat.lt_trans ha (by decide)
    · exact h.memInBuffers p hp
  uromIntact := h.uromIntact
  upcLegal := h.upcLegal
  upcQuiet := h.upcQuiet
  noRecord := h.noRecord
  record := h.record
  inputsTracked _ j := by simpa only [State.cellAt, Memory.specified_write] using htracked j
  inputsComplete hp := by simp [hidle] at hp
  idleData hp := by
    obtain ⟨hv, hz⟩ := h.idleData hp
    refine ⟨hv, fun j => (Memory.cell_write_other s.mem d ?_).trans (hz j)⟩
    rw [zAddr]
    omega
  faultData hp := by simp [hidle] at hp
  workingBlock hp := by simp [hidle] at hp
  workingRegisters hp := by simp [hidle] at hp
  resultBlock hp := by simp [hidle] at hp
  noModelFault := h.noModelFault

theorem storeA {s : State} (h : s.Inv) (hidle : s.phase = .idle) (j : Fin 128) (d : Word) :
    State.Inv { s with mem := s.mem.write (aAddr j) d, wa := setBit s.wa j } := by
  refine h.store hidle (by rw [aAddr]; omega) d fun k => ?_
  obtain ⟨hA, hB⟩ := h.inputsTracked (by rw [hidle]; nofun) k
  rw [hA, hB, setBit_getLsbD]
  exact ⟨by simp [aAddr], by simp⟩

theorem storeB {s : State} (h : s.Inv) (hidle : s.phase = .idle) (j : Fin 128) (d : Word) :
    State.Inv { s with mem := s.mem.write (bAddr j) d, wb := setBit s.wb j } := by
  refine h.store hidle (by rw [bAddr]; omega) d fun k => ?_
  obtain ⟨hA, hB⟩ := h.inputsTracked (by rw [hidle]; nofun) k
  rw [hA, hB, setBit_getLsbD]
  exact ⟨by simp, by rw [Bool.eq_iff_iff]; simp [bAddr]⟩

/-- An accepted `START`: `Z` and `V` have no value yet, and need none at `upc` = 0 (R177). -/
theorem start {s : State} (h : s.Inv) (hidle : s.phase = .idle) (hwa : s.wa = allWritten) (hwb : s.wb = allWritten) :
    State.Inv { s with v := unspecifiedV, phase := .busy, upc := 0 } where
  memCanonical := h.memCanonical
  memInBuffers := h.memInBuffers
  uromIntact := h.uromIntact
  upcLegal := Nat.zero_le 163
  upcQuiet _ := rfl
  noRecord _ := h.noRecord (by rw [hidle]; nofun)
  record := nofun
  inputsTracked _ := h.inputsTracked (by rw [hidle]; nofun)
  inputsComplete _ := ⟨hwa, hwb⟩
  idleData := nofun
  faultData := nofun
  workingBlock _ hupc := absurd hupc (Nat.not_succ_le_zero _)
  workingRegisters _ hupc := absurd hupc (Nat.not_succ_le_zero _)
  resultBlock := nofun
  noModelFault := h.noModelFault

/-- Outside FAULT there is no record to lose, so `CLR` does what reset does. -/
theorem clr {s : State} (h : s.Inv) (hs : s.phase ≠ .fault) :
    State.Inv { s.dropData with phase := .idle, upc := 0, wa := 0, wb := 0 } := by
  have hreset : { s.dropData with phase := .idle, upc := 0, wa := 0, wb := 0 } = Machine.resetEvent s := by
    rw [Machine.resetEvent, State.dropData, h.noRecord hs]
  rw [hreset]
  exact h.resetEvent

theorem command {s t : State} (h : s.Inv) {d : Word} {i : Instr} (hd : decodeCommand d = .ok i) (hexec : exec i s = .next t) : t.Inv := by
  rcases decodeCommand_cases hd with ⟨rfl, -⟩ | ⟨rfl, -⟩ | ⟨rfl, -⟩
  · obtain rfl := Host.Outcome.next.inj hexec
    exact h
  · rcases exec_start_cases hexec with ⟨-, rfl⟩ | ⟨hidle, hwa, hwb, rfl⟩ | ⟨code, hcode, rfl⟩
    · exact h
    · exact h.start hidle hwa hwb
    · exact h.raiseFault code hcode 0x180
  · rcases exec_clr_cases hexec with ⟨-, rfl⟩ | ⟨hphase, rfl⟩ | rfl
    · exact h
    · exact h.clr (by rcases hphase with hp | hp <;> rw [hp] <;> nofun)
    · exact h.raiseFault .cmd nofun 0x180

theorem hostWrite {s t : State} (h : s.Inv) {addr : HostAddr} {d : Word} (hwrite : hostWrite addr d s = .next t) : t.Inv := by
  rcases hostWrite_cases hwrite with
    ⟨-, rfl⟩ | ⟨hidle, j, -, rfl⟩ | ⟨hidle, j, -, rfl⟩ | ⟨-, -, rfl⟩ | ⟨-, -, -, rfl⟩ | ⟨-, -, i, hd, hexec⟩
  · exact h
  · exact h.storeA hidle j d
  · exact h.storeB hidle j d
  · exact h.raiseFault .access nofun addr
  · exact h.raiseFault .cmd nofun 0x180
  · exact h.command hd hexec

/-- A host read: the one read of data, of `Z` in DONE, finds a value. -/
theorem hostRead {s : State} (h : s.Inv) (addr : HostAddr) (r : Reply) : ((hostRead addr s).2.reply r).Inv := by
  rcases hostRead_cases addr s with hread | ⟨hdone, j, -, hread⟩ | hread <;> rw [hread]
  · exact h.bookkeeping _ _ _
  · have hspec : s.memSpecified [zAddr j] = true := (s.memSpecified_iff _).2 (by simpa using h.resultBlock hdone j)
    rw [hspec]
    exact h.bookkeeping _ _ _
  · exact (h.raiseFault .access nofun addr).bookkeeping _ _ _

/-- In BUSY every input word has a value (R177, R186). -/
theorem inputs_specified {s : State} (h : s.Inv) (hbusy : s.phase = .busy) (j : Fin 128) :
    (s.cellAt (aAddr j)).specified = true ∧ (s.cellAt (bAddr j)).specified = true := by
  obtain ⟨hwa, hwb⟩ := h.inputsComplete (.inl hbusy)
  obtain ⟨hA, hB⟩ := h.inputsTracked (by rw [hbusy]; nofun) j
  rw [hA, hB, hwa, hwb, allWritten, BitVec.getLsbD_allOnes, decide_eq_true j.isLt]
  exact ⟨rfl, rfl⟩

/-- The sequencer's turn in BUSY is the micro-op at `upc` of the micro-program. -/
theorem sequencerTurn_eq {s : State} (h : s.Inv) (hbusy : s.phase = .busy) :
    ∃ i, program[s.upc.toNat]? = some i ∧ sequencerTurn s = exec i s := by
  have hk : s.upc.toNat < 164 := Nat.lt_succ_of_le h.upcLegal
  obtain ⟨i, hi⟩ := program_getElem? hk
  refine ⟨i, hi, ?_⟩
  rw [sequencerTurn, hbusy]
  exact engineStep_program h.uromIntact (by simp) hk hi

section
variable {s t : State} (h : s.Inv) (hbusy : s.phase = .busy) (hk : s.upc.toNat < 163) {i : Instr}
  (hi : program[s.upc.toNat]? = some i) (hexec : exec i s = .next t)
include h hbusy hk hi hexec

/-- A micro-op before the last reads values only, and leaves values in `Z` and, from the first load on, in `V` (R186). -/
theorem microOp_values : t.modelFault = s.modelFault ∧ (∀ j, (t.cellAt (zAddr j)).specified = true) ∧
    (1 ≤ s.upc.toNat → ∀ r : Fin 16, (t.v[r]).specified = true) := by
  obtain ⟨hmicro, hdone, hxorin, hload⟩ := program_shape _ hk i hi
  have hblock : i ≠ .xorin → s.holds zAddr (s.readBlock zAddr) := fun hne =>
    State.holds_readBlock (h.workingBlock hbusy (Nat.one_le_iff_ne_zero.2 fun h0 => hne (hxorin.2 h0)))
  have hregisters : i ≠ .xorin → loadsRegisters i = false → s.v = wordsV (Vector.ofFn s.readV) := fun hne hnoload => by
    have hk0 : s.upc.toNat ≠ 0 := fun h0 => hne (hxorin.2 h0)
    have hk1 : s.upc.toNat ≠ 1 := fun h1 => Bool.false_ne_true (hnoload.symm.trans (hload h1))
    exact State.v_eq_wordsV (h.workingRegisters hbusy (by omega))
  obtain ⟨t', hexec', ⟨hleaves, -, -, hz⟩, hv⟩ := exec_microOpData (d := ⟨s.readBlock zAddr, Vector.ofFn s.readV⟩)
    (State.holds_readBlock fun j => (h.inputs_specified hbusy j).1) (State.holds_readBlock fun j => (h.inputs_specified hbusy j).2)
    hmicro hdone hblock hregisters
  obtain rfl := Host.Outcome.next.inj (hexec'.symm.trans hexec)
  refine ⟨by rw [hleaves], hz.specified, fun hone r => ?_⟩
  have hne : i ≠ .xorin := fun hx => by
    have hk0 := hxorin.1 hx
    omega
  rw [hv hne, getElem_wordsV]
  rfl

/-- A micro-op before the last keeps the invariant: its frame, and the values it leaves. -/
theorem microOp : t.Inv := by
  obtain ⟨hmicro, hdone, -, -⟩ := program_shape _ hk i hi
  obtain ⟨hfault, hz, hv⟩ := h.microOp_values hbusy hk hi hexec
  have hframe := exec_microOp_frame hmicro hexec
  obtain ⟨hphase, hupc⟩ := hframe.control hdone
  obtain ⟨ws, hws, hmem⟩ := hframe.memory
  have hupcNat : t.upc.toNat = s.upc.toNat + 1 := by
    rw [hupc, BitVec.toNat_add]
    exact Nat.mod_eq_of_lt (by simp; omega)
  rw [hbusy] at hphase
  exact {
    memCanonical := hmem ▸ Memory.wf_writeAll ws h.memCanonical
    memInBuffers := fun p hp => by
      rcases Memory.mem_writeAll (hmem ▸ hp) with hp | hp
      · obtain ⟨j, hj⟩ := hws p hp
        rw [hj, zAddr]
        omega
      · exact h.memInBuffers p hp
    uromIntact := hframe.microprogram.trans h.uromIntact
    upcLegal := by omega
    upcQuiet := by simp [hphase]
    noRecord := fun _ => hframe.errinfo.trans (h.noRecord (by rw [hbusy]; nofun))
    record := by simp [hphase]
    inputsTracked := fun _ j => by
      obtain ⟨hA, hB⟩ := hframe.cellAt_inputs j
      rw [hA, hB, hframe.writtenA, hframe.writtenB]
      exact h.inputsTracked (by rw [hbusy]; nofun) j
    inputsComplete := fun _ => by
      rw [hframe.writtenA, hframe.writtenB]
      exact h.inputsComplete (.inl hbusy)
    idleData := by simp [hphase]
    faultData := by simp [hphase]
    workingBlock := fun _ _ => hz
    workingRegisters := fun _ htwo => hv (by omega)
    resultBlock := by simp [hphase]
    noModelFault := hfault.trans h.noModelFault }

end

/-- The last micro-op, `DONE`: the working block is the output block (R36, R175). -/
theorem done {s : State} (h : s.Inv) (hbusy : s.phase = .busy) (hk : 1 ≤ s.upc.toNat) :
    State.Inv { s with phase := .done, upc := 0 } where
  memCanonical := h.memCanonical
  memInBuffers := h.memInBuffers
  uromIntact := h.uromIntact
  upcLegal := Nat.zero_le 163
  upcQuiet _ := rfl
  noRecord _ := h.noRecord (by rw [hbusy]; nofun)
  record := nofun
  inputsTracked _ := h.inputsTracked (by rw [hbusy]; nofun)
  inputsComplete _ := h.inputsComplete (.inl hbusy)
  idleData := nofun
  faultData := nofun
  workingBlock := nofun
  workingRegisters := nofun
  resultBlock _ := h.workingBlock hbusy hk
  noModelFault := h.noModelFault

/-- The sequencer's turn in BUSY: a micro-op before the last, or `DONE`. -/
theorem busyTurn {s t : State} (h : s.Inv) (hbusy : s.phase = .busy) (hturn : sequencerTurn s = .next t) : t.Inv := by
  obtain ⟨i, hi, hexec⟩ := h.sequencerTurn_eq hbusy
  rw [hturn] at hexec
  rcases Nat.lt_or_eq_of_le h.upcLegal with hlt | hlast
  · exact h.microOp hbusy hlt hi hexec.symm
  · rw [hlast, program_last] at hi
    obtain rfl := Option.some.inj hi
    obtain rfl := Host.Outcome.next.inj hexec
    exact h.done hbusy (by omega)

theorem sequencerTurn {s t : State} (h : s.Inv) (hturn : sequencerTurn s = .next t) : t.Inv := by
  rcases sequencerTurn_cases hturn with ⟨-, rfl⟩ | ⟨hbusy, -⟩ | ⟨hbusy, -⟩
  · exact h
  · exact h.busyTurn hbusy hturn
  · exact h.busyTurn hbusy hturn

theorem turn {e : Event} {s t : State} (h : s.Inv) (hturn : turn e s = .next t) : t.Inv := by
  rcases turn_cases hturn with ⟨-, hturn⟩ | ⟨addr, d, -, hwrite⟩ | ⟨addr, r, -, rfl⟩ | ⟨-, rfl⟩
  · exact h.sequencerTurn hturn
  · exact h.hostWrite hwrite
  · exact h.hostRead addr r
  · exact h.resetEvent

end State.Inv

/-- Settles O52: a step is one turn, which keeps the invariant. -/
theorem everyStepKeepsTheInvariant : Obligations.EveryStepKeepsTheInvariant := by
  intro s t h hstep
  rw [step_eq_turn] at hstep
  exact (h.bookkeeping s.events.tail s.replies s.draws).turn hstep

end Sys2Proof.Machine
end

section
/-! PROOFS. The groups of a pass commute (20_memory.md R63): they are disjoint, so a group's round neither reads nor writes another group's words. -/

namespace Sys2Proof.Machine

/-- Blocks that agree at every word are equal. -/
theorem block_ext {x y : Block} (h : ∀ j : Fin 128, x[j] = y[j]) : x = y :=
  Vector.ext fun j hj => h ⟨j, hj⟩

/-- A group's words survive the round of a disjoint group. -/
theorem groupWords_groupRound_of_disjoint {idx idx' : Fin 16 → Fin 128} (hdisj : ∀ i j, idx i ≠ idx' j) (z : Block) :
    groupWords idx (groupRound idx' z) = groupWords idx z :=
  registers_ext fun i => by
    rw [getElem_groupWords, getElem_groupWords, getElem_groupRound_other z fun j => (hdisj i j).symm]

/-- The rounds of two disjoint groups commute. -/
theorem groupRound_comm {idx idx' : Fin 16 → Fin 128} (hinj : Function.Injective idx) (hinj' : Function.Injective idx')
    (hdisj : ∀ i j, idx i ≠ idx' j) (z : Block) :
    groupRound idx (groupRound idx' z) = groupRound idx' (groupRound idx z) := by
  have hdisj' : ∀ i j, idx' i ≠ idx j := fun i j => (hdisj j i).symm
  refine block_ext fun j => ?_
  by_cases hin : ∃ i, idx i = j
  · obtain ⟨i, rfl⟩ := hin
    rw [getElem_groupRound_same hinj, groupWords_groupRound_of_disjoint hdisj, getElem_groupRound_other _ fun k => hdisj' k i,
      getElem_groupRound_same hinj]
  have hout : ∀ i, idx i ≠ j := fun i hi => hin ⟨i, hi⟩
  rw [getElem_groupRound_other _ hout]
  by_cases hin' : ∃ i, idx' i = j
  · obtain ⟨i, rfl⟩ := hin'
    rw [getElem_groupRound_same hinj', getElem_groupRound_same hinj', groupWords_groupRound_of_disjoint hdisj']
  · have hout' : ∀ i, idx' i ≠ j := fun i hi => hin' ⟨i, hi⟩
    rw [getElem_groupRound_other z hout', getElem_groupRound_other _ hout', getElem_groupRound_other z hout]

/-- A pass over pairwise disjoint groups is the same in any order. -/
theorem foldl_groupRound_perm {idx : BitVec 3 → Fin 16 → Fin 128} (hinj : ∀ n, Function.Injective (idx n))
    (hdisj : ∀ n m, n ≠ m → ∀ i j, idx n i ≠ idx m j) {order order' : List (BitVec 3)} (h : order.Perm order') (z : Block) :
    order.foldl (fun z n => groupRound (idx n) z) z = order'.foldl (fun z n => groupRound (idx n) z) z := by
  refine h.foldl_eq' (fun n _ m _ z => ?_) z
  by_cases hnm : n = m
  · rw [hnm]
  · exact groupRound_comm (hinj m) (hinj n) (hdisj m n (Ne.symm hnm)) z

/-- Settles O15: the windows are pairwise disjoint, and so are the columns. -/
theorem orderOfGroupsInsideAPassIsFree : Obligations.OrderOfGroupsInsideAPassIsFree := fun z _ h =>
  ⟨foldl_groupRound_perm rowidx_injective (fun _ _ => rowidx_disjoint) h z,
    foldl_groupRound_perm colidx_injective (fun _ _ => colidx_disjoint) h z⟩

end Sys2Proof.Machine
end

section
/-! PROOFS. The host port at every address and in every phase (20_memory.md R58, R68, R69). -/

namespace Sys2Proof.Machine

/-! ### The address map -/

theorem region_eq_bufA_iff {addr : HostAddr} {j : Fin 128} : region addr = .bufA j ↔ addr.toNat = aAddr j := by
  unfold region wordIndex aAddr
  split_ifs <;> simp [Fin.ext_iff] <;> omega

theorem region_eq_bufB_iff {addr : HostAddr} {j : Fin 128} : region addr = .bufB j ↔ addr.toNat = bAddr j := by
  unfold region wordIndex bAddr
  split_ifs <;> simp [Fin.ext_iff] <;> omega

theorem region_eq_bufZ_iff {addr : HostAddr} {j : Fin 128} : region addr = .bufZ j ↔ addr.toNat = zAddr j := by
  unfold region wordIndex zAddr
  split_ifs <;> simp [Fin.ext_iff] <;> omega

theorem exists_aAddr {a : Nat} (h : a < 0x080) : ∃ j : Fin 128, a = aAddr j := ⟨⟨a, h⟩, (Nat.zero_add a).symm⟩

theorem exists_bAddr {a : Nat} (hlow : 0x080 ≤ a) (hhigh : a < 0x100) : ∃ j : Fin 128, a = bAddr j :=
  ⟨⟨a - 0x080, by omega⟩, (Nat.add_sub_cancel' hlow).symm⟩

theorem exists_zAddr {a : Nat} (hlow : 0x100 ≤ a) (hhigh : a < 0x180) : ∃ j : Fin 128, a = zAddr j :=
  ⟨⟨a - 0x100, by omega⟩, (Nat.add_sub_cancel' hlow).symm⟩

theorem addr_of_region_status {addr : HostAddr} (h : region addr = .status) : addr = 0x181 := by
  unfold region at h
  split_ifs at h with hA hB hZ hctrl hstatus
  exact BitVec.eq_of_toNat_eq hstatus

theorem addr_of_region_errinfo {addr : HostAddr} (h : region addr = .errinfo) : addr = 0x182 := by
  unfold region at h
  split_ifs at h with hA hB hZ hctrl hstatus herrinfo
  exact BitVec.eq_of_toNat_eq herrinfo

/-! ### Writes (R68) -/

theorem hostWrite_fault {s : State} (h : s.phase = .fault) (addr : HostAddr) (d : Word) : hostWrite addr d s = .next s :=
  if_pos h

theorem hostWrite_bufA {s : State} (h : s.phase = .idle) {addr : HostAddr} {j : Fin 128} (haddr : addr.toNat = aAddr j) (d : Word) :
    hostWrite addr d s = .next { s with mem := s.mem.write addr.toNat d, wa := setBit s.wa j } := by
  simp [hostWrite, region_eq_bufA_iff.2 haddr, haddr, h]

theorem hostWrite_bufB {s : State} (h : s.phase = .idle) {addr : HostAddr} {j : Fin 128} (haddr : addr.toNat = bAddr j) (d : Word) :
    hostWrite addr d s = .next { s with mem := s.mem.write addr.toNat d, wb := setBit s.wb j } := by
  simp [hostWrite, region_eq_bufB_iff.2 haddr, haddr, h]

theorem hostWrite_ctrl {s : State} (h : s.phase ≠ .fault) (d : Word) : hostWrite 0x180 d s = command d s :=
  if_neg h

/-- A write is refused outside `A`, `B` and CTRL, and at every word of `A` and `B` outside IDLE. -/
theorem hostWrite_refused {s : State} (hs : s.phase ≠ .fault) {addr : HostAddr} (hctrl : addr ≠ 0x180)
    (h : 0x100 ≤ addr.toNat ∨ s.phase ≠ .idle) (d : Word) : hostWrite addr d s = .next (raiseFault .access addr s) := by
  obtain ⟨t, ht⟩ := hostWrite_next addr d s
  rw [ht]
  rcases hostWrite_cases ht with
    ⟨hf, -⟩ | ⟨hidle, j, hr, -⟩ | ⟨hidle, j, hr, -⟩ | ⟨-, -, rfl⟩ | ⟨-, hr, -⟩ | ⟨-, hr, -⟩
  · exact absurd hf hs
  · have haddr : addr.toNat = j := (region_eq_bufA_iff.1 hr).trans (Nat.zero_add j)
    exact absurd hidle (h.resolve_left (by omega))
  · have haddr : addr.toNat = 0x080 + j := region_eq_bufB_iff.1 hr
    exact absurd hidle (h.resolve_left (by omega))
  · rfl
  · exact absurd (addr_of_region_ctrl hr) hctrl
  · exact absurd (addr_of_region_ctrl hr) hctrl

/-- Settles O35: a step is the host write, by its equation in each phase and region. -/
theorem hostWriteStoresOrFaults : Obligations.HostWriteStoresOrFaults := by
  intro s addr d rest he s'
  rw [step_of_events he]
  refine ⟨fun hs => hostWrite_fault (s := s') hs addr d, fun hs hA => ?_, fun hs hA hB => ?_, fun hs hB => ?_, fun hs haddr => ?_,
    fun hs hB hctrl => hostWrite_refused (s := s') hs hctrl (.inl hB) d⟩
  · obtain ⟨j, hj⟩ := exists_aAddr hA
    refine ⟨_, hostWrite_bufA (s := s') hs hj d, Memory.cell_write_same s.mem _ d, fun _ => Memory.cell_write_other s.mem d,
      fun k => ?_, rfl⟩
    rw [hj, aAddr, Nat.zero_add]
    exact setBit_getLsbD s.wa j k
  · obtain ⟨j, hj⟩ := exists_bAddr hA hB
    refine ⟨_, hostWrite_bufB (s := s') hs hj d, Memory.cell_write_same s.mem _ d, fun _ => Memory.cell_write_other s.mem d,
      fun k => ?_, rfl⟩
    have hbit : (k.val + 0x080 == addr.toNat) = (k.val == j.val) := by
      rw [hj, bAddr, Nat.add_comm 0x080, Bool.eq_iff_iff, beq_iff_eq, beq_iff_eq, Nat.add_right_cancel_iff]
    rw [hbit]
    exact setBit_getLsbD s.wb j k
  · obtain ⟨hfault, hidle⟩ : s.phase ≠ .fault ∧ s.phase ≠ .idle := by rcases hs with hs | hs <;> simp [hs]
    have hctrl : addr ≠ 0x180 := by
      rintro rfl
      exact absurd hB (by decide)
    exact hostWrite_refused (s := s') hfault hctrl (.inr hidle) d
  · rw [haddr]
    exact hostWrite_ctrl (s := s') hs d

/-! ### Reads (R69) -/

/-- A read is refused at every address but the three registers, and but `Z` in DONE. -/
theorem hostRead_refused {s : State} {addr : HostAddr} (hctrl : addr ≠ 0x180) (hstatus : addr ≠ 0x181) (herrinfo : addr ≠ 0x182)
    (hZ : s.phase = .done → addr.toNat < 0x100 ∨ 0x180 ≤ addr.toNat) : hostRead addr s = refusedRead addr s := by
  unfold hostRead
  cases hr : region addr with
  | ctrl => exact absurd (addr_of_region_ctrl hr) hctrl
  | status => exact absurd (addr_of_region_status hr) hstatus
  | errinfo => exact absurd (addr_of_region_errinfo hr) herrinfo
  | bufZ j =>
    have haddr : addr.toNat = 0x100 + j := region_eq_bufZ_iff.1 hr
    exact if_neg fun hdone => by have := hZ hdone; omega
  | bufA j => rfl
  | bufB j => rfl
  | reserved => rfl

/-- In DONE a read of `Z` answers the word held there. -/
theorem hostRead_bufZ {s : State} (h : s.phase = .done) {addr : HostAddr} {j : Fin 128} (haddr : addr.toNat = zAddr j) {w : Word}
    (hw : s.cellAt (zAddr j) = .word w) : hostRead addr s = (w, s) := by
  have hspec : s.memSpecified [zAddr j] = true := by simp [State.memSpecified_iff, hw, Cell.specified]
  simp [hostRead, region_eq_bufZ_iff.2 haddr, h, State.readMem_of_word hw, hspec]

theorem turn_read {addr : HostAddr} {s t : State} {w : Word} (h : hostRead addr s = (w, t)) :
    turn (.port (.read addr)) s = .next (t.reply (.word w)) := by
  rw [turn, transact, h]

/-- Settles O36: a step is the host read, by its equation in each phase and region. -/
theorem hostReadReturnsOrFaults : Obligations.HostReadReturnsOrFaults := by
  intro s addr rest he s'
  rw [step_of_events he]
  refine ⟨fun h => ?_, fun h => ?_, fun h => ?_, fun hs hctrl hstatus herrinfo => ?_, fun hs hB hZ w hw => ?_, fun hs haddr => ?_⟩
  · rw [h]; rfl
  · rw [h]; rfl
  · rw [h]; rfl
  · have hread := hostRead_refused (s := s') hctrl hstatus herrinfo fun hdone => by cases hs.symm.trans hdone
    rw [refusedRead, raiseFault_fault (s := s') hs] at hread
    exact ⟨_, _, turn_read hread⟩
  · obtain ⟨j, hj⟩ := exists_zAddr hB hZ
    rw [hj] at hw
    exact turn_read (hostRead_bufZ (s := s') hs hj hw)
  · have hregister : ∀ r : HostAddr, 0x180 ≤ r.toNat → r.toNat ≤ 0x182 → addr ≠ r := by
      rintro r hlow hhigh rfl
      omega
    have hread := hostRead_refused (s := s') (hregister 0x180 (by decide) (by decide)) (hregister 0x181 (by decide) (by decide))
      (hregister 0x182 (by decide) (by decide)) fun hdone => by
        rcases haddr with hlow | hhigh | ⟨-, hnot⟩
        · exact .inl hlow
        · exact .inr (by omega)
        · exact absurd hdone hnot
    exact ⟨_, _, turn_read hread⟩

end Sys2Proof.Machine
end

section
/-! PROOFS. The bus adapter (20_memory.md R50, R53): bytes and words, the window, and the turns of the bus as turns of the port. -/

namespace Sys2Proof.Machine

theorem wordBytes_length (w : Word) : (wordBytes w).length = 8 := by simp [wordBytes]

theorem wordBytes_getElem? (w : Word) {k : Nat} (hk : k < 8) : (wordBytes w)[k]? = some (w.extractLsb' (8 * k) 8) := by
  rw [wordBytes, List.getElem?_map, List.getElem?_range hk, Option.map_some, wordByte]

/-- A word shifted down to its byte `k` is the word shifted one byte further, with byte `k` below it. -/
theorem ushiftRight_eq_or_wordByte (w : Word) (k : Nat) :
    w >>> (8 * k) = ((w >>> (8 * (k + 1))) <<< 8) ||| (wordByte w k).setWidth 64 := by
  refine BitVec.eq_of_getLsbD_eq fun i hi => ?_
  by_cases hlow : i < 8
  · simp [wordByte, hi, hlow]
  · have hidx : 8 * (k + 1) + (i - 8) = 8 * k + i := by omega
    simp [wordByte, hi, hlow, hidx]

/-- The bytes of a word from byte `k` to the last make the word shifted down to byte `k`. -/
theorem bytesWord_from (w : Word) (n k : Nat) (h : k + n = 8) :
    bytesWord ((List.range' k n).map (wordByte w)) = w >>> (8 * k) := by
  induction n generalizing k with
  | zero =>
    obtain rfl : k = 8 := h
    exact (BitVec.ushiftRight_eq_zero (Nat.le_refl 64)).symm
  | succ n ih =>
    rw [List.range'_succ, List.map_cons, bytesWord, ih (k + 1) (by omega), ← ushiftRight_eq_or_wordByte]

/-- The byte order of R50 loses nothing. -/
theorem bytesWord_wordBytes (w : Word) : bytesWord (wordBytes w) = w := by
  rw [wordBytes, List.range_eq_range', bytesWord_from w 8 0 rfl, Nat.mul_zero, BitVec.ushiftRight_zero]

theorem base_mod_page : Config.base % 4096 = 0 := Nat.mul_mod_right 4096 Config.basePage

theorem busWordAddr_window (addr : HostAddr) : busWordAddr (Config.base + 8 * addr.toNat) 8 = some addr := by
  have hpage := base_mod_page
  have hin : addr.toNat < 512 := addr.isLt
  rw [busWordAddr, if_pos ⟨rfl, by omega, by omega, by omega⟩, Nat.add_sub_cancel_left, Nat.mul_div_cancel_left _ (by decide),
    BitVec.ofNat_toNat, BitVec.setWidth_eq]

theorem busWordAddr_eq_none {byteAddr size : Nat} (h : size ≠ 8 ∨ byteAddr % 8 ≠ 0) : busWordAddr byteAddr size = none :=
  if_neg fun ⟨hsize, haligned, _⟩ => h.elim (· hsize) (· haligned)

theorem adapt_write (addr : HostAddr) (w : Word) :
    adapt (.write (Config.base + 8 * addr.toNat) (wordBytes w)) = some (.write addr w) := by
  rw [adapt, wordBytes_length, busWordAddr_window, Option.map_some, bytesWord_wordBytes]

theorem adapt_read (addr : HostAddr) : adapt (.read (Config.base + 8 * addr.toNat) 8) = some (.read addr) := by
  rw [adapt, busWordAddr_window, Option.map_some]

theorem step_bus_refused {s : State} {b : BusAccess} {rest : List Event} (he : s.events = .bus b :: rest) (hb : adapt b = none) :
    step s = .refused .busAccess := by
  rw [step_of_events he, turn, busTurn, hb]

theorem turn_bus {b : BusAccess} {tr : Transaction} (hb : adapt b = some tr) (s : State) :
    turn (.bus b) s = transact (fun w => .bytes (wordBytes w)) tr s := by
  rw [turn, busTurn, hb]

/-- Settles O39: the adapter's equation inside the window, and none for a narrower, wider or misaligned access. -/
theorem busAdapterForwardsAlignedWords : Obligations.BusAdapterForwardsAlignedWords := by
  refine ⟨base_mod_page, fun w => ⟨wordBytes_length w, fun k => wordBytes_getElem? w⟩, adapt_write, adapt_read,
    fun s byteAddr size rest he h => step_bus_refused he ?_, fun s byteAddr bytes rest he h => step_bus_refused he ?_⟩
  · rw [adapt, busWordAddr_eq_none h, Option.map_none]
  · rw [adapt, busWordAddr_eq_none h, Option.map_none]

/-- Settles O40: a write has no reply to take a form, and the form is all that the two reads differ in. -/
theorem busTransactionsActAsPortTransactions : Obligations.BusTransactionsActAsPortTransactions := by
  intro s addr w rest
  refine ⟨?_, (hostRead addr { s with events := rest }).2, (hostRead addr { s with events := rest }).1, rfl, ?_⟩
  · rw [step_of_events rfl, step_of_events rfl, turn_bus (adapt_write addr w)]
    rfl
  · rw [step_of_events rfl, turn_bus (adapt_read addr)]
    rfl

end Sys2Proof.Machine
end

section
/-! PROOFS. What no step writes: the micro-program (20_memory.md R67). -/

namespace Sys2Proof.Machine

theorem exec_urom {i : Instr} {s t : State} (h : exec i s = .next t) : t.urom = s.urom := by
  cases hi : isMicroOp i with
  | true => exact (exec_microOp_frame hi h).microprogram
  | false =>
    cases i with
    | nop =>
      obtain rfl := Host.Outcome.next.inj h
      rfl
    | start => rcases exec_start_cases h with ⟨-, rfl⟩ | ⟨-, -, -, rfl⟩ | ⟨code, -, rfl⟩ <;> simp
    | clr => rcases exec_clr_cases h with ⟨-, rfl⟩ | ⟨-, rfl⟩ | rfl <;> simp
    | _ => cases hi

theorem sequencerTurn_urom {s t : State} (h : sequencerTurn s = .next t) : t.urom = s.urom := by
  rcases sequencerTurn_cases h with ⟨-, rfl⟩ | ⟨-, rfl, -⟩ | ⟨-, u, i, -, -, hexec⟩
  · rfl
  · exact raiseFault_urom _ _ s
  · exact exec_urom hexec

theorem hostWrite_urom {addr : HostAddr} {d : Word} {s t : State} (h : hostWrite addr d s = .next t) : t.urom = s.urom := by
  rcases hostWrite_cases h with ⟨-, rfl⟩ | ⟨-, j, -, rfl⟩ | ⟨-, j, -, rfl⟩ | ⟨-, -, rfl⟩ | ⟨-, -, -, rfl⟩ | ⟨-, -, i, -, hexec⟩
  · rfl
  · rfl
  · rfl
  · exact raiseFault_urom _ _ s
  · exact raiseFault_urom _ _ s
  · exact exec_urom hexec

theorem hostRead_urom (addr : HostAddr) (s : State) : (hostRead addr s).2.urom = s.urom := by
  rcases hostRead_cases addr s with hread | ⟨-, j, -, hread⟩ | hread <;> simp [hread]

theorem turn_urom {e : Event} {s t : State} (h : turn e s = .next t) : t.urom = s.urom := by
  rcases turn_cases h with ⟨-, h⟩ | ⟨addr, d, -, h⟩ | ⟨addr, r, -, rfl⟩ | ⟨-, rfl⟩
  · exact sequencerTurn_urom h
  · exact hostWrite_urom h
  · exact hostRead_urom addr s
  · rfl

/-- Settles O51: a step is one turn, and no turn writes the micro-program. -/
theorem microProgramIsNeverWritten : Obligations.MicroProgramIsNeverWritten := fun s _ h =>
  turn_urom (s := s.popped) ((step_eq_turn s).symm.trans h)

end Sys2Proof.Machine
end

section
/-! PROOFS. Several engines: a step of a system is the step of one of them (20_memory.md R65; 60_exceptions.md R214). -/

namespace Sys2Proof.Machine

/-- A step of a system is the step of one of its engines, put in that engine's place. -/
theorem systemStep_eq_some_iff {k : Nat} {sys sys' : System} :
    systemStep k sys = some sys' ↔ ∃ s t, sys[k]? = some s ∧ step s = .next t ∧ sys' = sys.set k t := by
  unfold systemStep
  cases sys[k]? with
  | none => simp
  | some s => cases hs : step s <;> simp [hs, eq_comm]

/-- The engine that stepped stands in its place. -/
theorem getElem?_set_of_engine {sys : System} {k : Nat} {s : State} (h : sys[k]? = some s) (t : State) :
    (sys.set k t)[k]? = some t := by
  rw [List.getElem?_set_self', h]
  rfl

theorem decodeCommand_one : decodeCommand 1 = .ok .start := by decide

theorem exec_start_again {s : State} (hs : s.phase = .busy ∨ s.phase = .done) :
    exec .start s = .next (raiseFault .cmd 0x180 s) := by
  rcases hs with hs | hs <;> rw [exec, execStart, hs]

/-- A second `START` before `CLR` is a fault (R177, R214). -/
theorem step_start_again {s : State} {rest : List Event} (hs : s.phase = .busy ∨ s.phase = .done)
    (he : s.events = .port (.write 0x180 1) :: rest) : step s = .next (raiseFault .cmd 0x180 { s with events := rest }) := by
  have hfault : { s with events := rest }.phase ≠ .fault := by rcases hs with hs | hs <;> simp [hs]
  rw [step_of_events he, turn, transact, hostWrite_ctrl hfault, command, decodeCommand_one]
  exact exec_start_again hs

/-- Settles O60: a system's step replaces one engine by the state after that engine's own step. -/
theorem enginesShareNoState : Obligations.EnginesShareNoState := by
  refine ⟨fun sys sys' k h => ?_, fun sys k s t hk hs => systemStep_eq_some_iff.2 ⟨s, t, hk, hs, rfl⟩,
    fun sys k s rest hk hs he => ?_, fun n k hk => ?_⟩
  · obtain ⟨s, t, hk, hs, rfl⟩ := systemStep_eq_some_iff.1 h
    exact ⟨List.length_set, fun j hj => List.getElem?_set_ne hj.symm, s, t, hk, hs, getElem?_set_of_engine hk t⟩
  · exact ⟨_, _, systemStep_eq_some_iff.2 ⟨s, _, hk, step_start_again hs he, rfl⟩, getElem?_set_of_engine hk _, raiseFault_phase _ _ _⟩
  · rw [systemReset, List.getElem?_replicate, if_pos hk]

end Sys2Proof.Machine
end

section
/-! PROOFS of the statements of 30_encoding.md about words: the decoder and the encoder are inverse, the micro-program is the encoding of
`COMPRESS`, and the micro-words that are no instruction (R80 to R87, R89). -/

namespace Sys2Proof.Machine

/-- The fields of a micro-word stand side by side in it (R80). -/
theorem uw8Word_uw8Fields (u : MicroWord) : uw8Word (uw8Fields u) = u :=
  calc u.extractLsb' 4 4 ++ u.extractLsb' 3 1 ++ u.extractLsb' 0 3
    _ = u.extractLsb' 3 5 ++ u.extractLsb' 0 3 :=
        congrArg (· ++ u.extractLsb' 0 3) (BitVec.extractLsb'_append_extractLsb'_eq_extractLsb' rfl)
    _ = u := BitVec.extractLsb'_append_extractLsb'

theorem zBit_eq_zero : ∀ {z : BitVec 1}, z ≠ 1 → z = 0 := by decide

theorem encode_of_withoutOperand {op : BitVec 4} {n : BitVec 3} {i j : Instr} (hi : encode i = .uw8 (uw8Word ⟨op, 0, 0⟩))
    (h : withoutOperand n i = .ok j) : encode j = .uw8 (uw8Word ⟨op, 0, n⟩) := by
  unfold withoutOperand at h
  split_ifs at h with hn
  cases h
  rw [hn]
  exact hi

/-- The fields of a micro-word are those of the instruction they decode to. -/
theorem encode_of_decodeUw8 {f : Uw8} {i : Instr} (h : decodeUw8 f = .ok i) : encode i = .uw8 (uw8Word f) := by
  obtain ⟨op, z, n⟩ := f
  unfold decodeUw8 at h
  split_ifs at h with hz hop hop hop hop hop hop hop hop hop <;> obtain rfl : op = _ := hop <;> obtain rfl := zBit_eq_zero hz
  · exact encode_of_withoutOperand rfl h
  · cases h; rfl
  · cases h; rfl
  · cases h; rfl
  · cases h; rfl
  · cases h; rfl
  · exact encode_of_withoutOperand rfl h
  · exact encode_of_withoutOperand rfl h
  · exact encode_of_withoutOperand rfl h

theorem encode_of_decode {e : Encoded} {i : Instr} (h : decode e = .ok i) : encode i = e := by
  cases e with
  | uw8 u => exact (encode_of_decodeUw8 h).trans (congrArg Encoded.uw8 (uw8Word_uw8Fields u))
  | hcmd64 d => rcases decodeCommand_cases h with ⟨rfl, rfl⟩ | ⟨rfl, rfl⟩ | ⟨rfl, rfl⟩ <;> rfl

theorem decode_encode (i : Instr) : decode (encode i) = .ok i := by
  cases i with
  | ldrow n | ldcol n | g n | strow n | stcol n => revert n; decide
  | xorin | bar | fold | done | nop | start | clr => decide

theorem decode_eq_ok_iff (e : Encoded) (i : Instr) : decode e = .ok i ↔ e = encode i :=
  ⟨fun h => (encode_of_decode h).symm, fun h => h ▸ decode_encode i⟩

theorem decodeUop_eq_ok_iff {u w : MicroWord} {i : Instr} (hi : encode i = .uw8 w) : decodeUop u = .ok i ↔ u = w := by
  rw [← Encoded.uw8.injEq, ← hi]
  exact decode_eq_ok_iff (.uw8 u) i

theorem decodeCommand_eq_ok_iff {d w : Word} {i : Instr} (hi : encode i = .hcmd64 w) : decodeCommand d = .ok i ↔ d = w := by
  rw [← Encoded.hcmd64.injEq, ← hi]
  exact decode_eq_ok_iff (.hcmd64 d) i

/-- The words of a row with operand are consecutive, the operand counted up from the row's match value (R81). -/
theorem uw8Word_eq_add : ∀ (op : BitVec 4) (n : BitVec 3), uw8Word ⟨op, 0, n⟩ = op.setWidth 8 <<< 4 + n.setWidth 8 := by decide

theorem decodeUop_eq_ok_iff_operand {u : MicroWord} {op : BitVec 4} {n : BitVec 3} {i : Instr}
    (hi : encode i = .uw8 (uw8Word ⟨op, 0, n⟩)) : decodeUop u = .ok i ↔ u = op.setWidth 8 <<< 4 + n.setWidth 8 :=
  decodeUop_eq_ok_iff (hi.trans (congrArg Encoded.uw8 (uw8Word_eq_add op n)))

/-- Settles O2: the decoder and the encoder undo each other, and each row of the opcode map is what the encoder writes. -/
theorem decodeAndEncodeAreInverse : Obligations.DecodeAndEncodeAreInverse :=
  ⟨decode_eq_ok_iff,
    fun _ => ⟨decodeUop_eq_ok_iff rfl, fun _ => decodeUop_eq_ok_iff_operand (op := 0x2) rfl,
      fun _ => decodeUop_eq_ok_iff_operand (op := 0x3) rfl, fun _ => decodeUop_eq_ok_iff_operand (op := 0x4) rfl,
      fun _ => decodeUop_eq_ok_iff_operand (op := 0x5) rfl, fun _ => decodeUop_eq_ok_iff_operand (op := 0x6) rfl,
      decodeUop_eq_ok_iff rfl, decodeUop_eq_ok_iff rfl, decodeUop_eq_ok_iff rfl⟩,
    fun _ => ⟨decodeCommand_eq_ok_iff rfl, decodeCommand_eq_ok_iff rfl, decodeCommand_eq_ok_iff rfl⟩⟩

/-- Settles O1: each sample word is the encoding of its instruction. -/
theorem sampleWordsDecodeToTheirInstruction : Obligations.SampleWordsDecodeToTheirInstruction :=
  ⟨decode_encode .xorin, decode_encode (.ldrow 7), decode_encode (.ldcol 0), decode_encode (.g 5), decode_encode (.strow 7),
    decode_encode (.stcol 0), decode_encode .bar, decode_encode .fold, decode_encode .done, decode_encode .nop, decode_encode .start,
    decode_encode .clr⟩

/-- Micro-words that decode to a list of instructions are its encoding. -/
theorem map_uw8_eq_map_encode {us : List MicroWord} {is : List Instr} (h : us.map decodeUop = is.map .ok) :
    us.map .uw8 = is.map encode := by
  induction us generalizing is with
  | nil => cases is with
    | nil => rfl
    | cons i is => cases h
  | cons u us ih => cases is with
    | nil => cases h
    | cons i is =>
      obtain ⟨hhead, htail⟩ := List.cons.inj h
      exact congrArg₂ List.cons ((decode_eq_ok_iff (.uw8 u) i).1 hhead) (ih htail)

/-- Settles O5: the words of UROM decode to the expansion of `COMPRESS`, so they are its encoding; the rest is the expansion itself. -/
theorem uromIsTheExpansionOfCompress : Obligations.UromIsTheExpansionOfCompress :=
  ⟨map_uw8_eq_map_encode uromWords_decode, rfl, rfl, rfl, fun _ => ⟨rfl, rfl⟩, fun _ => ⟨rfl, rfl⟩, rfl, by decide, rfl, by decide, rfl,
    program_length⟩

/-! ## The micro-words that are no instruction -/

/-- A micro-word is no instruction exactly when its fields are not well-formed (R84, R86). -/
theorem decodeUw8_toOption_eq_none_iff (f : Uw8) : (decodeUw8 f).toOption = none ↔ f.wellFormed = false := by
  obtain ⟨op, z, n⟩ := f
  unfold decodeUw8
  split_ifs with hz h1 h2 h3 h4 h5 h6 h7 h8 h9
  · simp [show z = 1 from hz, Except.toOption, Uw8.wellFormed, Uw8.zClear]
  case neg =>
    have hreserved : ¬(0x1#4 ≤ op ∧ op ≤ 0x9#4) := by bv_omega
    simp [hreserved, Except.toOption, Uw8.wellFormed, Uw8.opDefined]
  all_goals
    obtain rfl := zBit_eq_zero hz
    obtain rfl : op = _ := ‹op = _›
    revert n
    decide

theorem wellFormed_eq_false_iff (f : Uw8) : f.wellFormed = false ↔
    (f.op.toNat = 0 ∨ 0xA ≤ f.op.toNat) ∨ f.z.toNat = 1 ∨
    ((f.op.toNat = 1 ∨ f.op.toNat = 7 ∨ f.op.toNat = 8 ∨ f.op.toNat = 9) ∧ f.n.toNat ≠ 0) := by
  simp only [Uw8.wellFormed, Uw8.zClear, Uw8.opDefined, Uw8.operandOk, Uw8.takesOperand, BitVec.le_def, ← BitVec.toNat_inj,
    Bool.and_eq_false_iff, Bool.or_eq_false_iff, Bool.not_eq_false', Bool.or_eq_true, beq_iff_eq, beq_eq_false_iff_ne, ne_eq,
    decide_eq_false_iff_not, BitVec.toNat_ofNat, Nat.reducePow, Nat.reduceMod]
  omega

theorem toNat_uw8Fields_op (u : MicroWord) : (uw8Fields u).op.toNat = u.toNat / 16 := by
  rw [uw8Fields, BitVec.extractLsb'_toNat, Nat.shiftRight_eq_div_pow]
  omega

theorem toNat_uw8Fields_z (u : MicroWord) : (uw8Fields u).z.toNat = u.toNat / 8 % 2 := by
  rw [uw8Fields, BitVec.extractLsb'_toNat, Nat.shiftRight_eq_div_pow]

theorem toNat_uw8Fields_n (u : MicroWord) : (uw8Fields u).n.toNat = u.toNat % 8 := by
  rw [uw8Fields, BitVec.extractLsb'_toNat, Nat.shiftRight_zero]

/-- The illegal micro-words by number: a reserved operation code, bit 3 set, or an operand where none is taken (R84). -/
theorem decodeUop_toOption_eq_none_iff (u : MicroWord) : (decodeUop u).toOption = none ↔
    (u.toNat / 16 = 0 ∨ 0xA ≤ u.toNat / 16) ∨ u.toNat / 8 % 2 = 1 ∨
    ((u.toNat / 16 = 1 ∨ u.toNat / 16 = 7 ∨ u.toNat / 16 = 8 ∨ u.toNat / 16 = 9) ∧ u.toNat % 8 ≠ 0) := by
  rw [decodeUop, decodeUw8_toOption_eq_none_iff, wellFormed_eq_false_iff, toNat_uw8Fields_op, toNat_uw8Fields_z, toNat_uw8Fields_n]

/-- Bit 3, the field `z` (R80), in the number of the word. -/
theorem getLsbD_three_iff (u : MicroWord) : u.getLsbD 3 = true ↔ u.toNat / 8 % 2 = 1 := by
  rw [← BitVec.testBit_toNat, Nat.testBit_eq_decide_div_mod_eq, decide_eq_true_iff]

theorem step_of_illegal_microWord {s : State} {u : MicroWord} {why : DecodeError} (hbusy : s.phase = .busy) (he : s.events = [])
    (hfetch : fetch s = some u) (hu : decodeUop u = .error why) : step s = .next (raiseFault .uop 0 s) := by
  rw [step_of_no_events he, sequencerTurn, hbusy]
  simp only [engineStep, hfetch, hu]

theorem decodeUop_of_mem_uromWords {u : MicroWord} (hu : u ∈ uromWords) : ∃ i, decodeUop u = .ok i := by
  have hmem : decodeUop u ∈ program.map .ok := uromWords_decode ▸ List.mem_map_of_mem hu
  obtain ⟨i, -, hi⟩ := List.mem_map.1 hmem
  exact ⟨i, hi.symm⟩

/-- Settles O3: the well-formedness of the fields as three ranges of numbers; the fetch of such a word; UROM decodes as a whole. -/
theorem illegalMicroWordsFaultAndExecuteNothing : Obligations.IllegalMicroWordsFaultAndExecuteNothing := by
  refine ⟨fun u => ?classes, by decide +kernel, by decide +kernel, by decide +kernel, by decide +kernel,
    fun _ _ _ => step_of_illegal_microWord, by decide, fun _ => decodeUop_of_mem_uromWords⟩
  case classes =>
    rw [decodeUop_toOption_eq_none_iff, getLsbD_three_iff]
    omega

end Sys2Proof.Machine
end

section
/-! PROOFS of the statement of 30_encoding.md about the assembler text: its digits, and that it is read back (R88, log 18). -/

namespace Sys2Proof.Machine

theorem hexDigit_of_lt : ∀ {d : Nat}, d < 16 → hexDigit d = if d < 10 then Char.ofNat (48 + d) else Char.ofNat (55 + d) := by
  decide

theorem length_hexDigits (k n : Nat) : (hexDigits k n).length = k := by
  induction k generalizing n with
  | zero => rfl
  | succ k ih => rw [hexDigits, List.length_append, ih, List.length_singleton]

/-- Digit `i` from the left of `k` stands for the power `k - 1 - i` of 16. -/
theorem getElem?_hexDigits {k n i : Nat} (hi : i < k) : (hexDigits k n)[i]? = some (hexDigit (n / 16 ^ (k - 1 - i) % 16)) := by
  induction k generalizing n with
  | zero => omega
  | succ k ih =>
    rw [hexDigits]
    rcases Nat.lt_succ_iff_lt_or_eq.1 hi with hlt | rfl
    · rw [List.getElem?_append_left (by rwa [length_hexDigits]), ih hlt, Nat.div_div_eq_div_mul, ← Nat.pow_succ',
        show (k - 1 - i).succ = k + 1 - 1 - i by omega]
    · simp [length_hexDigits]

/-- An operand is one decimal digit (R88). -/
theorem withDigit_eq (mnemonic : String) (n : BitVec 3) :
    withDigit mnemonic n = mnemonic.toList ++ [' ', Char.ofNat (48 + n.toNat)] := by
  rw [withDigit, hexDigit_of_lt (by omega), if_pos (by omega)]

theorem mem_allInstrs (i : Instr) : i ∈ allInstrs := by
  cases i with
  | ldrow n | ldcol n | g n | strow n | stcol n => revert n; decide
  | xorin | bar | fold | done | nop | start | clr => decide

theorem nodup_map_instrText : (allInstrs.map instrText).Nodup := by decide +kernel

theorem instrText_injective : Function.Injective instrText := fun i j h =>
  List.inj_on_of_nodup_map nodup_map_instrText (mem_allInstrs i) (mem_allInstrs j) h

/-- The text of an instruction has no comment and no blank at its ends. -/
theorem stripLine_instrText (i : Instr) : stripLine (instrText i) = instrText i := by
  cases i with
  | ldrow n | ldcol n | g n | strow n | stcol n => revert n; decide
  | xorin | bar | fold | done | nop | start | clr => decide

theorem parseLine_instrText (i : Instr) : parseLine (instrText i) = some i := by
  rw [parseLine, stripLine_instrText]
  have hfound : (allInstrs.find? fun j => instrText j == instrText i).isSome :=
    List.find?_isSome.2 ⟨i, mem_allInstrs i, beq_self_eq_true _⟩
  obtain ⟨j, hj⟩ := Option.isSome_iff_exists.1 hfound
  have heq : (instrText j == instrText i) = true := List.find?_some (p := fun j => instrText j == instrText i) hj
  rw [hj, instrText_injective (eq_of_beq heq)]

/-- The blanks at the right end are dropped last. -/
theorem stripLine_eq (line : List Char) :
    stripLine line = ((line.takeWhile (· ≠ ';')).dropWhile (· = ' ')).rdropWhile (· = ' ') := rfl

theorem rdropWhile_dropWhile_blank (line : List Char) :
    ((line ++ [' ']).dropWhile (· = ' ')).rdropWhile (· = ' ') = (line.dropWhile (· = ' ')).rdropWhile (· = ' ') := by
  rw [List.dropWhile_append]
  split_ifs with hblank
  · rw [List.isEmpty_iff.1 hblank]
    rfl
  · exact List.rdropWhile_concat_pos _ _ _ (by decide)

/-- A blank and a comment behind a line are not read (R88). -/
theorem stripLine_append_comment (line comment : List Char) : stripLine (line ++ ' ' :: ';' :: comment) = stripLine line := by
  rw [stripLine_eq, stripLine_eq, List.takeWhile_append]
  split_ifs with hfree
  · rw [(List.takeWhile_prefix _).eq_of_length hfree]
    exact rdropWhile_dropWhile_blank line
  · rfl

theorem parseLine_append_comment (line comment : List Char) : parseLine (line ++ ' ' :: ';' :: comment) = parseLine line := by
  rw [parseLine, parseLine, stripLine_append_comment]

/-- Settles O6: the digits by induction on their number; a comment does not change what a line stands for, and no two instructions have
one text. -/
theorem assemblerTextReadsBack : Obligations.AssemblerTextReadsBack :=
  ⟨⟨rfl, rfl, rfl, rfl⟩, fun n => ⟨withDigit_eq _ n, withDigit_eq _ n, withDigit_eq _ n, withDigit_eq _ n, withDigit_eq _ n⟩,
    ⟨rfl, rfl, rfl⟩, fun _ _ => ⟨rfl, rfl⟩,
    fun k n => ⟨length_hexDigits k n, fun i hi =>
      (getElem?_hexDigits hi).trans (congrArg some (hexDigit_of_lt (Nat.mod_lt _ (by decide))))⟩,
    fun i => (parseLine_append_comment (instrText i) " text".toList).trans (parseLine_instrText i)⟩

end Sys2Proof.Machine
end

section
/-! PROOFS of the statements of 40_g_mixing.md: `Gfn` is a composition of invertible steps with inverse `GfnInv`, and the micro-op `G w`
applies it to the four registers of its wiring (R108, R110, R112). -/

namespace Sys2Proof.Machine

/-! ## Gfn and its inverse -/

/-- Rotations compose by adding their amounts. -/
theorem rotr64_rotr64 (x : Word) (m n : Nat) : rotr64 (rotr64 x m) n = rotr64 x (m + n) := by
  refine BitVec.eq_of_getLsbD_eq fun i hi => ?_
  rw [getLsbD_rotr64 _ n hi, getLsbD_rotr64 x m (Nat.mod_lt _ (by decide)), getLsbD_rotr64 x (m + n) hi]
  congr 1
  omega

/-- Two rotations by a multiple of 64 positions together undo each other. -/
theorem rotr64_rotr64_cancel (x : Word) {m n : Nat} (h : (m + n) % 64 = 0) : rotr64 (rotr64 x m) n = x := by
  obtain ⟨-, -, hzero⟩ := rotationMovesBitsRight x (m + n)
  rw [rotr64_rotr64, hzero h]

theorem xor64_xor64_cancel (x y : Word) : xor64 (xor64 x y) y = x := by
  rw [xor64, xor64, BitVec.xor_assoc, BitVec.xor_self, BitVec.xor_zero]

/-- The steps S2, S4, S6 and S8 on the word they replace: exclusive OR with `y`, then the rotation by `n`; undone by the rotation by `m`, the
rest of a full turn, and the same exclusive OR. -/
def xorRotate (y : Word) (n m : Nat) (h : (n + m) % 64 = 0) : Equiv.Perm Word where
  toFun x := rotr64 (xor64 x y) n
  invFun x := xor64 (rotr64 x m) y
  left_inv x := (congrArg (xor64 · y) (rotr64_rotr64_cancel (xor64 x y) h)).trans (xor64_xor64_cancel x y)
  right_inv x := (congrArg (rotr64 · n) (xor64_xor64_cancel (rotr64 x m) y)).trans (rotr64_rotr64_cancel x (Nat.add_comm n m ▸ h))

/-- The steps S1 and S5. -/
def mixAddA : Equiv.Perm Quad where
  toFun q := { q with a := add64 q.a q.b }
  invFun q := { q with a := q.a - q.b }
  left_inv q := congrArg (fun a => { q with a }) (BitVec.add_sub_cancel q.a q.b)
  right_inv q := congrArg (fun a => { q with a }) (BitVec.sub_add_cancel q.a q.b)

/-- The steps S3 and S7. -/
def mixAddC : Equiv.Perm Quad where
  toFun q := { q with c := add64 q.c q.d }
  invFun q := { q with c := q.c - q.d }
  left_inv q := congrArg (fun c => { q with c }) (BitVec.add_sub_cancel q.c q.d)
  right_inv q := congrArg (fun c => { q with c }) (BitVec.sub_add_cancel q.c q.d)

/-- The steps S4 and S8, which rotate by `n`. -/
def mixXorB (n m : Nat) (h : (n + m) % 64 = 0) : Equiv.Perm Quad where
  toFun q := { q with b := xorRotate q.c n m h q.b }
  invFun q := { q with b := (xorRotate q.c n m h).symm q.b }
  left_inv q := congrArg (fun b => { q with b }) ((xorRotate q.c n m h).symm_apply_apply q.b)
  right_inv q := congrArg (fun b => { q with b }) ((xorRotate q.c n m h).apply_symm_apply q.b)

/-- The steps S2 and S6, which rotate by `n`. -/
def mixXorD (n m : Nat) (h : (n + m) % 64 = 0) : Equiv.Perm Quad where
  toFun q := { q with d := xorRotate q.a n m h q.d }
  invFun q := { q with d := (xorRotate q.a n m h).symm q.d }
  left_inv q := congrArg (fun d => { q with d }) ((xorRotate q.a n m h).symm_apply_apply q.d)
  right_inv q := congrArg (fun d => { q with d }) ((xorRotate q.a n m h).apply_symm_apply q.d)

/-- `Gfn` as the composition of its steps S1 to S8, each with its inverse (R112). -/
def gfnPerm : Equiv.Perm Quad :=
  mixAddA.trans <| (mixXorD 32 32 rfl).trans <| mixAddC.trans <| (mixXorB 24 40 rfl).trans <|
    mixAddA.trans <| (mixXorD 16 48 rfl).trans <| mixAddC.trans <| mixXorB 63 1 rfl

theorem gfnPerm_apply (q : Quad) : gfnPerm q = gfn q := rfl

theorem gfnPerm_symm_apply (q : Quad) : gfnPerm.symm q = gfnInv q := rfl

theorem gfnInv_gfn (q : Quad) : gfnInv (gfn q) = q := by
  rw [← gfnPerm_symm_apply, ← gfnPerm_apply, Equiv.symm_apply_apply]

theorem gfn_gfnInv (q : Quad) : gfn (gfnInv q) = q := by
  rw [← gfnPerm_symm_apply, ← gfnPerm_apply, Equiv.apply_symm_apply]

theorem gfn_bijective : Function.Bijective gfn := gfnPerm.bijective

theorem gfn_zero : gfn ⟨0, 0, 0, 0⟩ = ⟨0, 0, 0, 0⟩ := by decide

/-- Settles O12: the lines are the steps of the definition, and each of these steps is a permutation of the quads. -/
theorem mixingIsABijection : Obligations.MixingIsABijection :=
  ⟨fun _ _ _ _ => rfl, gfn_zero, fun q => ⟨gfnInv_gfn q, gfn_gfnInv q⟩⟩

/-! ## The micro-op -/

/-- The four registers of a wiring are distinct, so that each keeps the word written to it. -/
theorem writeQuad_wire (v : Vector Cell 16) (w : BitVec 3) (q : Quad) :
    (writeQuad v (wire w) q)[(wire w).a] = .word q.a ∧ (writeQuad v (wire w) q)[(wire w).b] = .word q.b ∧
      (writeQuad v (wire w) q)[(wire w).c] = .word q.c ∧ (writeQuad v (wire w) q)[(wire w).d] = .word q.d := by
  obtain ⟨hab, hac, had, hbc, hbd, hcd⟩ := wire_distinct w
  refine ⟨?_, ?_, ?_, ?_⟩ <;> rw [writeQuad_getElem]
  · rw [if_neg had, if_neg hac, if_neg hab, if_pos rfl]
  · rw [if_neg hbd, if_neg hbc, if_pos rfl]
  · rw [if_neg hcd, if_pos rfl]
  · rw [if_pos rfl]

theorem writeQuad_other (v : Vector Cell 16) {r : Wiring} (q : Quad) {i : Fin 16} (ha : i ≠ r.a) (hb : i ≠ r.b) (hc : i ≠ r.c)
    (hd : i ≠ r.d) : (writeQuad v r q)[i] = v[i] := by
  rw [writeQuad_getElem, if_neg hd, if_neg hc, if_neg hb, if_neg ha]

/-- `G w` on four registers that hold words. -/
theorem exec_g_of_words {w : BitVec 3} {s : State} {q : Quad} (ha : s.v[(wire w).a] = .word q.a) (hb : s.v[(wire w).b] = .word q.b)
    (hc : s.v[(wire w).c] = .word q.c) (hd : s.v[(wire w).d] = .word q.d) :
    exec (.g w) s = .next { s with v := writeQuad s.v (wire w) (gfn q), upc := s.upc + 1 } := by
  have hspec : s.vSpecified [(wire w).a, (wire w).b, (wire w).c, (wire w).d] = true := by
    simp only [State.vSpecified, List.all_cons, List.all_nil, ha, hb, hc, hd, Cell.specified, Bool.and_self]
  have hread : readQuad s (wire w) = q := by
    rw [readQuad, State.readV_of_word ha, State.readV_of_word hb, State.readV_of_word hc, State.readV_of_word hd]
  rw [exec_g, hspec, State.noteReads_true, hread]
  rfl

/-- Settles O19: the next state differs in `V` and `upc` only, and `V` in the four registers of the wiring only. -/
theorem gMixesItsFourRegisters : Obligations.GMixesItsFourRegisters := by
  intro w s q ha hb hc hd
  obtain ⟨hwa, hwb, hwc, hwd⟩ := writeQuad_wire s.v w (gfn q)
  exact ⟨_, exec_g_of_words ha hb hc hd, hwa, hwb, hwc, hwd, fun _ => writeQuad_other s.v (gfn q), rfl, fun _ => rfl, rfl⟩

end Sys2Proof.Machine
end

section
/-! PROOFS. The wirings of the register shuffler: the registers they name (41_p_round.md R120, R122), and the laws of reading and writing the
four words of a wiring. -/

namespace Sys2Proof.Machine

/-- The registers that a wiring connects, in the order of the operand positions. -/
def Wiring.registers (r : Wiring) : List (Fin 16) := [r.a, r.b, r.c, r.d]

@[simp] theorem Wiring.mem_registers (r : Wiring) (i : Fin 16) : i ∈ r.registers ↔ i = r.a ∨ i = r.b ∨ i = r.c ∨ i = r.d := by
  simp [registers]

/-- The closed form of the table of R120: the positions `b`, `c` and `d` of a diagonal are shifted by one, two and three columns. -/
theorem wire_closed_form : ∀ w : BitVec 3,
    (wire w).a.val = w.toNat % 4 ∧
    (wire w).b.val = 4 + (w.toNat % 4 + w.toNat / 4) % 4 ∧
    (wire w).c.val = 8 + (w.toNat % 4 + 2 * (w.toNat / 4)) % 4 ∧
    (wire w).d.val = 12 + (w.toNat % 4 + 3 * (w.toNat / 4)) % 4 := by decide

/-- Settles O11: the closed form row by row, and the count of each register in the sixteen names of a half. -/
theorem wiringsCoverTheRegistersTwice : Obligations.WiringsCoverTheRegistersTwice := by
  refine ⟨wire_closed_form, fun i half h => ?_⟩
  rcases h with rfl | rfl
  · revert i; decide
  · revert i; decide

/-- Two different wirings of one half (the top bit of `w` tells which) name disjoint registers (R124). -/
theorem wire_disjoint : ∀ w w' : BitVec 3, w ≠ w' → w.msb = w'.msb → (wire w).registers.Disjoint (wire w').registers := by
  unfold List.Disjoint
  decide

/-! ## The words of a wiring -/

/-- What a register holds after four words were written through a wiring. -/
theorem getElem_putQuad (v : Vector Word 16) (r : Wiring) (q : Quad) (i : Fin 16) :
    (putQuad v r q)[i] = if i = r.d then q.d else if i = r.c then q.c else if i = r.b then q.b else if i = r.a then q.a else v[i] :=
  getElem_setWiring v r q.a q.b q.c q.d i

theorem getElem_putQuad_other (v : Vector Word 16) {r : Wiring} (q : Quad) {i : Fin 16} (h : i ∉ r.registers) :
    (putQuad v r q)[i] = v[i] := by
  simp only [Wiring.mem_registers, not_or] at h
  obtain ⟨ha, hb, hc, hd⟩ := h
  rw [getElem_putQuad, if_neg hd, if_neg hc, if_neg hb, if_neg ha]

/-- The four registers of a wiring are distinct, so that the words written are the words read. -/
theorem getQuad_putQuad (v : Vector Word 16) (w : BitVec 3) (q : Quad) : getQuad (putQuad v (wire w) q) (wire w) = q := by
  obtain ⟨hab, hac, had, hbc, hbd, hcd⟩ := wire_distinct w
  simp only [getQuad, getElem_putQuad, hab, hac, had, hbc, hbd, hcd, if_true, if_false]

/-- Writing the words that are there changes nothing. -/
theorem putQuad_getQuad (v : Vector Word 16) (r : Wiring) : putQuad v r (getQuad v r) = v := registers_ext fun i => by
  rw [getElem_putQuad]
  split_ifs with hd hc hb ha
  · rw [hd]; rfl
  · rw [hc]; rfl
  · rw [hb]; rfl
  · rw [ha]; rfl
  · rfl

/-- The second of two writes through a wiring stands. -/
theorem putQuad_putQuad (v : Vector Word 16) (r : Wiring) (q q' : Quad) : putQuad (putQuad v r q) r q' = putQuad v r q' :=
  registers_ext fun i => by
    rw [getElem_putQuad, getElem_putQuad, getElem_putQuad]
    split_ifs <;> rfl

theorem getQuad_congr {u v : Vector Word 16} {r : Wiring} (h : ∀ i ∈ r.registers, u[i] = v[i]) : getQuad u r = getQuad v r := by
  simp only [Wiring.mem_registers, forall_eq_or_imp, forall_eq] at h
  obtain ⟨ha, hb, hc, hd⟩ := h
  simp only [getQuad, ha, hb, hc, hd]

end Sys2Proof.Machine
end

section
/-! PROOFS of the statements of 41_p_round.md about `Pfn`: each line of its loop is a permutation of the register files, lines of one half
commute, and the micro-ops of `P` run the loop (R123 to R126). -/

namespace Sys2Proof.Machine

/-! ## One line of the loop -/

theorem getQuad_gAt (v : Vector Word 16) (w : BitVec 3) : getQuad (gAt v w) (wire w) = gfn (getQuad v (wire w)) :=
  getQuad_putQuad v w (gfn (getQuad v (wire w)))

theorem getElem_gAt_other (v : Vector Word 16) {w : BitVec 3} {i : Fin 16} (h : i ∉ (wire w).registers) : (gAt v w)[i] = v[i] :=
  getElem_putQuad_other v (gfn (getQuad v (wire w))) h

/-- A line of the loop, undone by `GfnInv` on the same four words. -/
def gAtPerm (w : BitVec 3) : Equiv.Perm (Vector Word 16) where
  toFun v := gAt v w
  invFun v := putQuad v (wire w) (gfnInv (getQuad v (wire w)))
  left_inv v := by
    beta_reduce
    rw [getQuad_gAt, gfnInv_gfn, gAt, putQuad_putQuad, putQuad_getQuad]
  right_inv v := by
    beta_reduce
    rw [gAt, getQuad_putQuad, gfn_gfnInv, putQuad_putQuad, putQuad_getQuad]

theorem gAt_bijective (w : BitVec 3) : Function.Bijective (gAt · w) := (gAtPerm w).bijective

theorem gAt_zero (w : BitVec 3) : gAt (Vector.replicate 16 0) w = Vector.replicate 16 0 := by
  have hzero : getQuad (Vector.replicate 16 0) (wire w) = ⟨0, 0, 0, 0⟩ := by simp [getQuad]
  have hfixed : gfn (getQuad (Vector.replicate 16 0) (wire w)) = getQuad (Vector.replicate 16 0) (wire w) := by
    rw [hzero, gfn_zero]
  rw [gAt, hfixed, putQuad_getQuad]

/-! ## The whole loop -/

/-- A loop whose every turn is a bijection is a bijection. -/
theorem foldl_bijective {α β : Type} {f : β → α → β} (h : ∀ a, Function.Bijective (f · a)) (l : List α) :
    Function.Bijective (l.foldl f) := by
  induction l with
  | nil => exact Function.bijective_id
  | cons a l ih => exact ih.comp (h a)

/-- Settles O13: each line replaces the four words of its wiring, keeps zeros and is a permutation, and `Pfn` is the eight lines in order. -/
theorem roundFunctionIsABijection : Obligations.RoundFunctionIsABijection :=
  ⟨fun _ => rfl, fun v w => ⟨getQuad_gAt v w, fun i ha hb hc hd => getElem_gAt_other v (by simp [ha, hb, hc, hd])⟩,
    List.foldl_fixed' gAt_zero groups, foldl_bijective gAt_bijective groups⟩

/-! ## The order of the lines of a half -/

/-- A line of the loop at a register depends on that register and on the four words of the wiring. -/
theorem getElem_gAt_congr {u v : Vector Word 16} {w : BitVec 3} {i : Fin 16} (hquad : getQuad u (wire w) = getQuad v (wire w))
    (hi : u[i] = v[i]) : (gAt u w)[i] = (gAt v w)[i] := by
  rw [gAt, gAt, getElem_putQuad, getElem_putQuad, hquad, hi]

/-- Lines on disjoint registers commute, seen at a register that the first of them does not write. -/
theorem getElem_gAt_comm_of_not_mem {w w' : BitVec 3} (hdisj : (wire w).registers.Disjoint (wire w').registers) (v : Vector Word 16)
    {i : Fin 16} (hi : i ∉ (wire w).registers) : (gAt (gAt v w) w')[i] = (gAt (gAt v w') w)[i] := by
  have hquad : getQuad (gAt v w) (wire w') = getQuad v (wire w') := getQuad_congr fun j hj => getElem_gAt_other v (hdisj.symm hj)
  calc (gAt (gAt v w) w')[i]
    _ = (gAt v w')[i] := getElem_gAt_congr hquad (getElem_gAt_other v hi)
    _ = (gAt (gAt v w') w)[i] := (getElem_gAt_other _ hi).symm

theorem gAt_comm {w w' : BitVec 3} (hdisj : (wire w).registers.Disjoint (wire w').registers) (v : Vector Word 16) :
    gAt (gAt v w) w' = gAt (gAt v w') w := registers_ext fun i => by
  by_cases hi : i ∈ (wire w).registers
  · exact (getElem_gAt_comm_of_not_mem hdisj.symm v (hdisj hi)).symm
  · exact getElem_gAt_comm_of_not_mem hdisj v hi

/-- Lines of one half give the same in any order. -/
theorem foldl_gAt_perm {order half : List (BitVec 3)} (hhalf : ∀ w ∈ half, ∀ w' ∈ half, w.msb = w'.msb) (h : order.Perm half)
    (v : Vector Word 16) : order.foldl gAt v = half.foldl gAt v := by
  refine h.foldl_eq' (fun w hw w' hw' v => ?_) v
  by_cases hne : w = w'
  · rw [hne]
  · exact gAt_comm (wire_disjoint w w' hne (hhalf w (h.subset hw) w' (h.subset hw'))) v

/-- Settles O14: 0 to 3 have the top bit 0, and 4 to 7 the top bit 1. -/
theorem orderInsideAHalfIsFree : Obligations.OrderInsideAHalfIsFree := fun v _ =>
  ⟨fun h => foldl_gAt_perm (by decide) h v, fun h => foldl_gAt_perm (by decide) h v⟩

/-! ## The micro-ops of P -/

theorem execAll_cons_of_next {i : Instr} {s t : State} (h : exec i s = .next t) (is : List Instr) :
    execAll (i :: is) s = execAll is t := by
  rw [execAll, h]

/-- The micro-ops `G w` for a list of wirings, on a register file of words, run the loop over these wirings. -/
theorem execAll_g_words (ws : List (BitVec 3)) {s : State} {v : Vector Word 16} (h : s.v = wordsV v) :
    execAll (ws.map .g) s = .next { s with v := wordsV (ws.foldl gAt v), upc := s.upc + BitVec.ofNat 8 ws.length } := by
  induction ws generalizing s v with
  | nil => rw [List.map_nil, execAll, List.foldl_nil, ← h, List.length_nil, BitVec.add_zero]
  | cons w ws ih =>
    have hupc : s.upc + 1 + BitVec.ofNat 8 ws.length = s.upc + BitVec.ofNat 8 (w :: ws).length := by
      rw [List.length_cons, Nat.add_comm, BitVec.ofNat_add, BitVec.add_assoc]
      rfl
    rw [List.map_cons, execAll_cons_of_next (exec_g_words w h), ih rfl, hupc, List.foldl_cons]

/-- Settles O20: the loop over the wirings 0 to 7 is `Pfn`. -/
theorem pseudoPAppliesPfn : Obligations.PseudoPAppliesPfn :=
  ⟨rfl, fun _ _ h => execAll_g_words groups h⟩

end Sys2Proof.Machine
end

section
/-! PROOFS. The index functions of the gather and scatter micro-ops: their wiring, and the groups they name (42_gather_scatter.md R141, R142). -/

namespace Sys2Proof.Machine

/-! ## The wiring -/

/-- The number of two fields put together. -/
theorem toNat_append_eq_add {m n : Nat} (x : BitVec m) (y : BitVec n) : (x ++ y).toNat = x.toNat * 2 ^ n + y.toNat := by
  rw [BitVec.toNat_append, ← Nat.shiftLeft_add_eq_or_of_lt y.isLt, Nat.shiftLeft_eq]

theorem rowidx_eq_append (n : BitVec 3) (i : Fin 16) : BitVec.ofNat 7 (rowidx n i).val = n ++ BitVec.ofNat 4 i.val := by
  refine BitVec.eq_of_toNat_eq ?_
  simp only [toNat_append_eq_add, BitVec.toNat_ofNat, rowidx]
  omega

theorem colidx_eq_append (n : BitVec 3) (i : Fin 16) :
    BitVec.ofNat 7 (colidx n i).val = BitVec.ofNat 3 (i.val / 2) ++ (n ++ BitVec.ofNat 1 (i.val % 2)) := by
  refine BitVec.eq_of_toNat_eq ?_
  simp only [toNat_append_eq_add, BitVec.toNat_ofNat, colidx]
  omega

/-- Settles O9: both wirings as sums of their fields; the address is `zAddr` itself. -/
theorem indexFunctionsAreBitWirings : Obligations.IndexFunctionsAreBitWirings := fun n i =>
  ⟨rowidx_eq_append n i, colidx_eq_append n i, rfl, rfl⟩

/-! ## The groups -/

/-- Eight disjoint groups of sixteen different words are all 128 words, by counting. -/
theorem groups_bijective {idx : BitVec 3 → Fin 16 → Fin 128} (hinj : ∀ n, Function.Injective (idx n))
    (hdisj : ∀ n m, n ≠ m → ∀ i j, idx n i ≠ idx m j) : Function.Bijective fun p : BitVec 3 × Fin 16 => idx p.1 p.2 := by
  have hcard : Fintype.card (BitVec 3 × Fin 16) = Fintype.card (Fin 128) := rfl
  refine (Fintype.bijective_iff_injective_and_card _).2 ⟨?_, hcard⟩
  rintro ⟨n, i⟩ ⟨m, j⟩ h
  obtain rfl : n = m := by_contra fun hnm => hdisj n m hnm i j h
  exact congrArg (Prod.mk n) (hinj n h)

/-- The words of window `k`: the index's bits 6:4 are `k`. -/
theorem exists_rowidx_eq_iff (k : BitVec 3) (j : Fin 128) : (∃ i, rowidx k i = j) ↔ j.val / 16 = k.toNat := by
  constructor
  · rintro ⟨i, rfl⟩
    simp only [rowidx]
    omega
  · intro h
    exact ⟨⟨j.val % 16, by omega⟩, Fin.ext (by simp only [rowidx]; omega)⟩

/-- The words of column `c`: the index's bits 3:1 are `c`. -/
theorem exists_colidx_eq_iff (c : BitVec 3) (j : Fin 128) : (∃ i, colidx c i = j) ↔ j.val % 16 / 2 = c.toNat := by
  have hc := c.isLt
  constructor
  · rintro ⟨i, rfl⟩
    simp only [colidx]
    omega
  · intro h
    exact ⟨⟨2 * (j.val / 16) + j.val % 2, by omega⟩, Fin.ext (by simp only [colidx]; omega)⟩

/-- Settles O10: the groups of a mode are disjoint, so they partition; a word's window and column are fields of its index. -/
theorem groupsPartitionTheBlock : Obligations.GroupsPartitionTheBlock := by
  refine ⟨groups_bijective rowidx_injective fun _ _ => rowidx_disjoint, groups_bijective colidx_injective fun _ _ => colidx_disjoint,
    fun k c j => ?_⟩
  have hc := c.isLt
  rw [exists_rowidx_eq_iff, exists_colidx_eq_iff]
  omega

end Sys2Proof.Machine
end

section
/-! PROOFS. The gather and scatter micro-ops over any index function, and a gather followed by the scatter of its group (42_gather_scatter.md
R143 to R146, R148). -/

namespace Sys2Proof.Machine

@[simp] theorem cellAt_gather (idx : Fin 16 → Fin 128) (s : State) (a : Nat) : (gather idx s).cellAt a = s.cellAt a := by
  rw [State.cellAt, gather_mem, State.cellAt]

/-- A gather of a group that holds `x`: the registers hold `x`, the memory is as it was, and nothing else but `upc` changes. -/
theorem gather_of_words {idx : Fin 16 → Fin 128} {s : State} {x : Vector Word 16}
    (h : ∀ i : Fin 16, s.cellAt (zAddr (idx i)) = .word x[i]) :
    (∀ i : Fin 16, (gather idx s).v[i] = .word x[i]) ∧ (∀ a, (gather idx s).cellAt a = s.cellAt a) ∧
      gather idx s = { s with v := (gather idx s).v, upc := s.upc + 1 } :=
  ⟨fun i => by rw [gather_v, State.readMem_of_word (h i)], cellAt_gather idx s,
    gather_eq fun i => (Cell.specified_iff _).2 ⟨_, h i⟩⟩

/-- A scatter of sixteen registers that hold `x`: the group holds `x`, every other address is as it was, and nothing else but `upc` changes. -/
theorem scatter_of_words {idx : Fin 16 → Fin 128} (hinj : Function.Injective idx) {s : State} {x : Vector Word 16} (h : s.v = wordsV x) :
    (∀ i : Fin 16, (scatter idx s).cellAt (zAddr (idx i)) = .word x[i]) ∧
      (∀ a, (∀ i : Fin 16, a ≠ zAddr (idx i)) → (scatter idx s).cellAt a = s.cellAt a) ∧
      scatter idx s = { s with mem := (scatter idx s).mem, upc := s.upc + 1 } :=
  ⟨fun i => by rw [scatter_cell_same hinj, State.readV_wordsV h], fun _ => scatter_cell_other s,
    scatter_eq fun i => (Cell.specified_iff _).2 ⟨x[i], by rw [h, getElem_wordsV]⟩⟩

/-- The scatter of a group writes back the words that the gather of the same group has just read. -/
theorem cellAt_scatter_gather {idx : Fin 16 → Fin 128} (hinj : Function.Injective idx) {s : State}
    (h : ∀ i, (s.cellAt (zAddr (idx i))).specified = true) (a : Nat) : (scatter idx (gather idx s)).cellAt a = s.cellAt a := by
  by_cases ha : ∃ i, a = zAddr (idx i)
  · obtain ⟨i, rfl⟩ := ha
    rw [scatter_cell_same hinj, State.readV_of_word (gather_v idx s i), ← State.cellAt_of_specified (h i)]
  · rw [scatter_cell_other _ (not_exists.1 ha), cellAt_gather]

/-- Settles O21: both loads are a gather. -/
theorem loadsGatherTheirGroup : Obligations.LoadsGatherTheirGroup := fun _ _ _ =>
  ⟨fun h => ⟨_, rfl, gather_of_words h⟩, fun h => ⟨_, rfl, gather_of_words h⟩⟩

/-- Settles O22: both stores are a scatter, through an injective index function. -/
theorem storesScatterTheirGroup : Obligations.StoresScatterTheirGroup := fun n _ _ h =>
  ⟨⟨_, rfl, scatter_of_words (rowidx_injective n) h⟩, ⟨_, rfl, scatter_of_words (colidx_injective n) h⟩⟩

/-- Settles O23: in both modes a gather, then the scatter of the same group. -/
theorem loadThenStoreLeavesZ : Obligations.LoadThenStoreLeavesZ := fun n _ =>
  ⟨fun h => ⟨_, rfl, fun j => cellAt_scatter_gather (rowidx_injective n) h (zAddr j)⟩,
    fun h => ⟨_, rfl, fun j => cellAt_scatter_gather (colidx_injective n) h (zAddr j)⟩⟩

end Sys2Proof.Machine
end

section
/-! PROOFS of the statements of 43_xor_fold.md: the XOR units on blocks of words, and the fold identity (R160, R161, R163). -/

namespace Sys2Proof.Machine

/-! ## The micro-ops -/

/-- The effect and the frame of the 128 lanes: `Z[i]` holds lane `i`, every address outside `Z` is as it was, and nothing else but `upc`
changes. -/
theorem advance_writeLanes_effect (lane : Fin 128 → Word) (s : State) :
    (∀ i, (writeLanes lane s).advance.cellAt (zAddr i) = .word (lane i)) ∧
      (∀ x, (∀ i, x ≠ zAddr i) → (writeLanes lane s).advance.cellAt x = s.cellAt x) ∧
      (writeLanes lane s).advance = { s with mem := (writeLanes lane s).advance.mem, upc := s.upc + 1 } := by
  refine ⟨fun i => ?_, fun x hx => ?_, advance_writeLanes_eq lane s⟩
  · rw [State.cellAt_advance, writeLanes_cell_same]
  · rw [State.cellAt_advance, writeLanes_cell_other lane s hx]

section
variable {s : State} {a b : Block} (ha : s.holds aAddr a) (hb : s.holds bAddr b)
include ha hb

/-- `XORIN` on two blocks is the lanes `a[i] xor b[i]` (R160). -/
theorem exec_xorin_of_blocks : exec .xorin s = .next (writeLanes (fun i => xor64 a[i] b[i]) s).advance := by
  have hlane : xorinLane s = fun i => xor64 a[i] b[i] := funext fun i => by rw [xorinLane, ha.readMem, hb.readMem]
  rw [exec_xorin, inputsSpecified_of_holds ha hb, State.noteReads_true, hlane]

/-- `FOLD` on three blocks is the lanes `z[i] xor a[i] xor b[i]` (R161). -/
theorem exec_fold_of_blocks {z : Block} (hz : s.holds zAddr z) :
    exec .fold s = .next (writeLanes (fun i => xor64 (xor64 z[i] a[i]) b[i]) s).advance := by
  have hlane : foldLane s = fun i => xor64 (xor64 z[i] a[i]) b[i] := funext fun i => by
    rw [foldLane, hz.readMem, ha.readMem, hb.readMem]
  rw [exec_fold, (s.bufferSpecified_iff zAddr).2 hz.specified, inputsSpecified_of_holds ha hb, Bool.and_self, State.noteReads_true,
    hlane]

end

/-- Settles O24: on two blocks `XORIN` is the lanes `a[i] xor b[i]`. -/
theorem xorinBuildsTheWorkingBlock : Obligations.XorinBuildsTheWorkingBlock := fun s _ _ ha hb =>
  ⟨_, exec_xorin_of_blocks ha hb, advance_writeLanes_effect _ s⟩

/-- Settles O25: on three blocks `FOLD` is the lanes `z[i] xor a[i] xor b[i]`. -/
theorem foldXorsBothInputsIntoZ : Obligations.FoldXorsBothInputsIntoZ := fun s _ _ _ ha hb hz =>
  ⟨_, exec_fold_of_blocks ha hb hz, advance_writeLanes_effect _ s⟩

/-! ## The fold identity -/

theorem xor64_right_comm (x y z : Word) : xor64 (xor64 x y) z = xor64 (xor64 x z) y := by
  rw [xor64, xor64, xor64, xor64, BitVec.xor_assoc, BitVec.xor_comm y z, ← BitVec.xor_assoc]

/-- Two words taken in by exclusive OR twice are out again. -/
theorem xor64_xor64_cancel_pair (x y z : Word) : xor64 (xor64 (xor64 (xor64 x y) z) y) z = x := by
  rw [xor64_right_comm (xor64 x y) z y, xor64_xor64_cancel, xor64_xor64_cancel]

/-- Settles O18: `compress` ends by taking in `a[i]` and `b[i]`, and the identity takes them in once more. -/
theorem foldIdentity : Obligations.FoldIdentity := by
  intro a b i
  rw [compress, getElem_xorBlock, getElem_xorBlock, xor64_xor64_cancel_pair]

end Sys2Proof.Machine
end

section
/-! PROOFS of the statements of 44_sequencer.md about the function computed: the two passes are bijections, and `compress` by its steps
(R170, R171). -/

namespace Sys2Proof.Machine

/-! ## The words of a group -/

/-- The words of a group are the words scattered to it. -/
theorem groupWords_scatterBlock {idx : Fin 16 → Fin 128} (hinj : Function.Injective idx) (z : Block) (v : Vector Word 16) :
    groupWords idx (scatterBlock idx z v) = v := registers_ext fun i => by
  rw [getElem_groupWords, getElem_scatterBlock_same hinj]

/-- Scattering the words that are there changes nothing. -/
theorem scatterBlock_groupWords {idx : Fin 16 → Fin 128} (hinj : Function.Injective idx) (z : Block) :
    scatterBlock idx z (groupWords idx z) = z := block_ext fun j => by
  by_cases hj : ∃ i, idx i = j
  · obtain ⟨i, rfl⟩ := hj
    rw [getElem_scatterBlock_same hinj, getElem_groupWords]
  · exact getElem_scatterBlock_other z _ (not_exists.1 hj)

/-- The second of two scatters to a group stands. -/
theorem scatterBlock_scatterBlock {idx : Fin 16 → Fin 128} (hinj : Function.Injective idx) (z : Block) (v w : Vector Word 16) :
    scatterBlock idx (scatterBlock idx z v) w = scatterBlock idx z w := block_ext fun j => by
  by_cases hj : ∃ i, idx i = j
  · obtain ⟨i, rfl⟩ := hj
    rw [getElem_scatterBlock_same hinj, getElem_scatterBlock_same hinj]
  · have hout := not_exists.1 hj
    rw [getElem_scatterBlock_other _ w hout, getElem_scatterBlock_other z v hout, getElem_scatterBlock_other z w hout]

theorem groupWords_zero (idx : Fin 16 → Fin 128) : groupWords idx (Vector.replicate 128 0) = Vector.replicate 16 0 :=
  registers_ext fun i => by
    rw [getElem_groupWords]
    simp

/-! ## The passes -/

theorem pfn_bijective : Function.Bijective pfn := foldl_bijective gAt_bijective groups

theorem pfn_zero : pfn (Vector.replicate 16 0) = Vector.replicate 16 0 := List.foldl_fixed' gAt_zero groups

/-- A group's round is undone by the inverse of `Pfn` on the words of the same group. -/
theorem groupRound_bijective {idx : Fin 16 → Fin 128} (hinj : Function.Injective idx) : Function.Bijective (groupRound idx) := by
  obtain ⟨pfnInv, hleft, hright⟩ := Function.bijective_iff_has_inverse.1 pfn_bijective
  refine Function.bijective_iff_has_inverse.2 ⟨fun z => scatterBlock idx z (pfnInv (groupWords idx z)), fun z => ?_, fun z => ?_⟩
  · beta_reduce
    rw [groupRound_eq, groupWords_scatterBlock hinj, hleft, scatterBlock_scatterBlock hinj, scatterBlock_groupWords hinj]
  · beta_reduce
    rw [groupRound_eq, groupWords_scatterBlock hinj, hright, scatterBlock_scatterBlock hinj, scatterBlock_groupWords hinj]

theorem groupRound_zero {idx : Fin 16 → Fin 128} (hinj : Function.Injective idx) :
    groupRound idx (Vector.replicate 128 0) = Vector.replicate 128 0 := by
  have hpfn : pfn (groupWords idx (Vector.replicate 128 0)) = groupWords idx (Vector.replicate 128 0) := by
    rw [groupWords_zero, pfn_zero]
  rw [groupRound_eq, hpfn, scatterBlock_groupWords hinj]

theorem rowRound_zero (k : BitVec 3) : rowRound (Vector.replicate 128 0) k = Vector.replicate 128 0 :=
  groupRound_zero (rowidx_injective k)

theorem colRound_zero (c : BitVec 3) : colRound (Vector.replicate 128 0) c = Vector.replicate 128 0 :=
  groupRound_zero (colidx_injective c)

theorem perm_zero : perm (Vector.replicate 128 0) = Vector.replicate 128 0 := by
  rw [perm, rowPass, List.foldl_fixed' rowRound_zero, colPass, List.foldl_fixed' colRound_zero]

theorem rowRound_bijective (k : BitVec 3) : Function.Bijective (rowRound · k) := groupRound_bijective (rowidx_injective k)

theorem colRound_bijective (c : BitVec 3) : Function.Bijective (colRound · c) := groupRound_bijective (colidx_injective c)

theorem rowPass_bijective (order : List (BitVec 3)) : Function.Bijective (rowPass order) := foldl_bijective rowRound_bijective order

theorem colPass_bijective (order : List (BitVec 3)) : Function.Bijective (colPass order) := foldl_bijective colRound_bijective order

theorem perm_bijective : Function.Bijective perm := by
  have hcomp : perm = colPass groups ∘ rowPass groups := funext fun r => by rw [Function.comp_apply, perm]
  rw [hcomp]
  exact (colPass_bijective groups).comp (rowPass_bijective groups)

/-- Settles O16: a group's round, in both modes, replaces the words of its group by a bijection of them. -/
theorem twoPassesAreABijection : Obligations.TwoPassesAreABijection :=
  ⟨fun _ => rfl,
    fun z n => ⟨getElem_groupRound_same (rowidx_injective n) z, fun _ => getElem_groupRound_other z,
      getElem_groupRound_same (colidx_injective n) z, fun _ => getElem_groupRound_other z⟩,
    perm_zero, perm_bijective⟩

/-! ## compress -/

theorem xorBlock_comm (x y : Block) : xorBlock x y = xorBlock y x := block_ext fun j => by
  rw [getElem_xorBlock, getElem_xorBlock, xor64, xor64, BitVec.xor_comm]

theorem xorBlock_right_comm (x y z : Block) : xorBlock (xorBlock x y) z = xorBlock (xorBlock x z) y := block_ext fun j => by
  simp only [getElem_xorBlock]
  exact xor64_right_comm _ _ _

theorem xorBlock_self (x : Block) : xorBlock x x = Vector.replicate 128 0 := block_ext fun j => by
  rw [getElem_xorBlock, xor64, BitVec.xor_self]
  simp

theorem xorBlock_xorBlock_cancel (x y : Block) : xorBlock (xorBlock x y) y = x := block_ext fun j => by
  rw [getElem_xorBlock, getElem_xorBlock, xor64_xor64_cancel]

theorem compress_comm (a b : Block) : compress a b = compress b a := by
  rw [compress, compress, xorBlock_comm a b, xorBlock_right_comm]

theorem compress_self (a : Block) : compress a a = Vector.replicate 128 0 := by
  rw [compress, xorBlock_self, perm_zero, xorBlock_xorBlock_cancel]

/-- Settles O17: a block with the words `a[i] xor b[i]` is the working block of step 1; the rest by the laws of exclusive OR. -/
theorem compressIsSymmetricAndZeroOnEqualBlocks : Obligations.CompressIsSymmetricAndZeroOnEqualBlocks := by
  intro a b
  refine ⟨fun r hr i => ?_, compress_comm a b, compress_self a⟩
  obtain rfl : r = xorBlock a b := block_ext fun j => by rw [hr j, getElem_xorBlock]
  rw [compress, getElem_xorBlock, getElem_xorBlock]

end Sys2Proof.Machine
end

section
/-! PROOFS of the statements of 44_sequencer.md about single turns: the micro-program, the sequencer's turn, `BAR` and `DONE` (R172 to R175),
and the host commands at the port (R176 to R180). -/

namespace Sys2Proof.Machine

/-! ## The micro-program and the sequencer's turn -/

/-- Settles O4: the list of words evaluated at the indices of the table. -/
theorem uromHoldsTheListedWords : Obligations.UromHoldsTheListedWords :=
  ⟨uromWords_length, rfl, by decide +kernel, rfl, by decide +kernel, rfl, rfl⟩

theorem sequencerTurn_busy {s : State} (h : s.phase = .busy) : sequencerTurn s = engineStep s := by
  rw [sequencerTurn, h]

theorem sequencerTurn_quiet {s : State} (h : s.phase ≠ .busy) : sequencerTurn s = .next s := by
  unfold sequencerTurn
  cases hp : s.phase with
  | busy => exact absurd hp h
  | idle => rfl
  | done => rfl
  | fault => rfl

theorem engineStep_of_decode {s : State} {u : MicroWord} {i : Instr} (hfetch : fetch s = some u) (hu : decodeUop u = .ok i) :
    engineStep s = exec i s := by
  simp only [engineStep, hfetch, hu]

theorem engineStep_of_illegal {s : State} {u : MicroWord} {why : DecodeError} (hfetch : fetch s = some u) (hu : decodeUop u = .error why) :
    engineStep s = .next (raiseFault .uop 0 s) := by
  simp only [engineStep, hfetch, hu]

theorem engineStep_past_end {s : State} (hfetch : fetch s = none) : engineStep s = .next (raiseFault .uop 0 s) := by
  simp only [engineStep, hfetch]

/-- No turn of the sequencer waits (R173). -/
theorem engineStep_next (s : State) : ∃ t, engineStep s = .next t := by
  cases hfetch : fetch s with
  | none => exact ⟨_, engineStep_past_end hfetch⟩
  | some u =>
    cases hu : decodeUop u with
    | error why => exact ⟨_, engineStep_of_illegal hfetch hu⟩
    | ok i =>
      rw [engineStep_of_decode hfetch hu]
      exact exec_next i s

/-- Settles O48: quiet outside BUSY; in BUSY the range check, the fetch and the decode check in turn. -/
theorem sequencerStepsOnlyWhenBusy : Obligations.SequencerStepsOnlyWhenBusy := by
  intro s hrom
  refine ⟨fun hbusy => ?_, sequencerTurn_quiet, fun hbusy hupc => ?_, fun hbusy hupc => ?_⟩
  · rw [sequencerTurn_busy hbusy]
    exact engineStep_next s
  · rw [sequencerTurn_busy hbusy, engineStep_past_end (fetch_past_end hrom hupc)]
  · have hin : s.upc.toNat < uromWords.length := by
      rw [uromWords_length]
      omega
    have hfetch : fetch s = some uromWords[s.upc.toNat] := by rw [fetch, hrom, List.getElem?_eq_getElem hin]
    rw [sequencerTurn_busy hbusy]
    exact ⟨_, List.getElem?_eq_getElem hin, fun i => engineStep_of_decode hfetch, fun why => engineStep_of_illegal hfetch⟩

/-- Settles O26: the meaning of `BAR` is the advance of `upc`. -/
theorem barOnlyAdvances : Obligations.BarOnlyAdvances := fun _ => rfl

/-- Settles O27: the state by its definition; STATUS and the output `done` by the phase; with no turn pending the sequencer is quiet. -/
theorem doneEndsTheOperation : Obligations.DoneEndsTheOperation := fun _ =>
  ⟨_, rfl, rfl, statusWord_eq _, rfl, fun _ => rfl, fun he => (step_of_no_events he).trans (sequencerTurn_quiet nofun)⟩

/-- Settles O41: such a turn is recorded at most in the replies. -/
theorem harmlessTurnsLeaveTheRunAlone : Obligations.HarmlessTurnsLeaveTheRunAlone := by
  intro s e rest _ he hharm hhost
  obtain ⟨rs, hstep⟩ := step_of_harmless he hharm hhost
  exact ⟨_, hstep, rfl⟩

/-! ## The host commands -/

/-- Settles O31: the meaning of `NOP` is no effect. -/
theorem nopHasNoEffect : Obligations.NopHasNoEffect := fun _ => rfl

theorem exec_start_complete {s : State} (hidle : s.phase = .idle) (hwa : s.wa = allWritten) (hwb : s.wb = allWritten) :
    exec .start s = .next { s with v := unspecifiedV, phase := .busy, upc := 0 } := by
  rw [exec, execStart, hidle]
  exact if_pos ⟨hwa, hwb⟩

theorem exec_start_incomplete {s : State} (hidle : s.phase = .idle) (h : s.wa ≠ allWritten ∨ s.wb ≠ allWritten) :
    exec .start s = .next (raiseFault .precond 0x180 s) := by
  rw [exec, execStart, hidle]
  exact if_neg fun ⟨hwa, hwb⟩ => h.elim (· hwa) (· hwb)

/-- Settles O32: `START` in each phase, in IDLE by the written-bits. -/
theorem startBeginsOnlyACompleteOperation : Obligations.StartBeginsOnlyACompleteOperation := fun _ =>
  ⟨exec_start_complete, exec_start_incomplete, exec_start_again, fun hfault => by rw [exec, execStart, hfault]⟩

theorem exec_clr_quiet {s : State} (h : s.phase = .idle ∨ s.phase = .done) :
    exec .clr s = .next { s.dropData with phase := .idle, upc := 0, wa := 0, wb := 0 } := by
  rcases h with h | h <;> rw [exec, execClr, h]

/-- Settles O33: `CLR` in each phase. -/
theorem clrGivesUpTheBlocks : Obligations.ClrGivesUpTheBlocks := fun _ =>
  ⟨fun h => ⟨_, exec_clr_quiet h, rfl, rfl, rfl, rfl, fun _ => rfl, fun i => Vector.getElem_replicate i.isLt, rfl⟩,
    fun hbusy => by rw [exec, execClr, hbusy], fun hfault => by rw [exec, execClr, hfault]⟩

/-! ## The commands at the port -/

/-- A write to CTRL outside FAULT is the command of its word (R68, R179). -/
theorem step_ctrl {s : State} {d : Word} {rest : List Event} (hs : s.phase ≠ .fault) (he : s.events = .port (.write 0x180 d) :: rest) :
    step s = command d { s with events := rest } :=
  (step_of_events he).trans (hostWrite_ctrl (s := { s with events := rest }) hs d)

theorem command_of_decode {d : Word} {i : Instr} (hd : decodeCommand d = .ok i) (s : State) : command d s = exec i s := by
  rw [command, hd]

theorem command_of_illegal {d : Word} {why : DecodeError} (hd : decodeCommand d = .error why) (s : State) :
    command d s = .next (raiseFault .cmd 0x180 s) := by
  rw [command, hd]

/-- The illegal command words: a reserved bit set, or the reserved value (R28). -/
theorem decodeCommand_illegal {d : Word} (h : d.extractLsb' 2 62 ≠ 0 ∨ d.extractLsb' 0 2 = 3) : ∃ why, decodeCommand d = .error why := by
  by_cases hres : d.extractLsb' 2 62 = 0
  · exact ⟨.reservedCommand, (if_neg (not_not.2 hres)).trans (if_pos (h.resolve_left (not_not.2 hres)))⟩
  · exact ⟨.reservedCommandBits, if_pos hres⟩

/-- With the reserved bits clear a command word is decoded by its two low bits. -/
theorem decodeCommand_legal {d : Word} {cmd : BitVec 2} (hres : d.extractLsb' 2 62 = 0) (hcmd : d.extractLsb' 0 2 = cmd) :
    decodeCommand d = decodeHcmd64 ⟨0, cmd⟩ := by
  rw [decodeCommand, hcmdFields, hres, hcmd]

/-- Settles O34: no effect in FAULT; otherwise the command that the two fields of the word decode to. -/
theorem controlWriteIsACommand : Obligations.ControlWriteIsACommand := by
  intro s d rest he s'
  have hlegal {cmd : BitVec 2} {i : Instr} (hi : decodeHcmd64 ⟨0, cmd⟩ = .ok i) (hs : s.phase ≠ .fault)
      (hres : d.extractLsb' 2 62 = 0) (hcmd : d.extractLsb' 0 2 = cmd) : step s = exec i s' := by
    rw [step_ctrl hs he, command_of_decode ((decodeCommand_legal hres hcmd).trans hi)]
  refine ⟨fun hs => ?_, fun hs h => ?_, hlegal rfl, hlegal rfl, hlegal rfl⟩
  · rw [step_of_events he]
    exact hostWrite_fault (s := s') hs 0x180 d
  · obtain ⟨why, hd⟩ := decodeCommand_illegal h
    rw [step_ctrl hs he, command_of_illegal hd]

/-- Settles O49: with no turn pending by the step; a micro-word by the fetch at `upc`, a command word by the write to CTRL. -/
theorem stepRunsTheDecodedInstruction : Obligations.StepRunsTheDecodedInstruction := by
  refine ⟨fun s => step_of_no_events, fun s u i hbusy hfetch hu => ?_, fun s d i rest hs he hd => ?_⟩
  · have hturn (es : List Event) : sequencerTurn { s with events := es } = exec i { s with events := es } :=
      (sequencerTurn_busy (s := { s with events := es }) hbusy).trans (engineStep_of_decode hfetch hu)
    exact ⟨fun he => (step_of_no_events he).trans (hturn s.events), fun rest he => (step_of_events he).trans (hturn rest)⟩
  · rw [step_ctrl hs he, command_of_decode hd]

end Sys2Proof.Machine
end

section
/-! PROOFS of the statements of 44_sequencer.md about a run: the working block after each part of the micro-program, the length of an
operation, and that it reads no unspecified value (R181, R182, R186). -/

namespace Sys2Proof.Machine

/-! ## The working data along the micro-program -/

/-- The eight `G` of `P` apply the loop of R125 to the registers. -/
theorem foldl_microOpData_g (a b : Block) (ws : List (BitVec 3)) (d : WorkingData) :
    (ws.map .g).foldl (microOpData a b) d = { d with v := ws.foldl gAt d.v } := by
  induction ws generalizing d with
  | nil => rfl
  | cons w ws ih => exact ih (microOpData a b d (.g w))

/-- A load, `P` and the store of the same group are the group's round on the working block (R89, R171). -/
theorem foldl_microOpData_group (a b : Block) {load store : Instr} {idx : Fin 16 → Fin 128}
    (hload : ∀ d, microOpData a b d load = { d with v := groupWords idx d.z })
    (hstore : ∀ d, microOpData a b d store = { d with z := scatterBlock idx d.z d.v }) (d : WorkingData) :
    ((load :: expandP ++ [store]).foldl (microOpData a b) d).z = groupRound idx d.z := by
  rw [List.cons_append, List.foldl_cons, List.foldl_append, expandP, foldl_microOpData_g, List.foldl_cons, List.foldl_nil, hload, hstore,
    groupRound_eq, pfn]

theorem foldl_expandRowround (a b : Block) (d : WorkingData) (k : BitVec 3) :
    ((expandRowround k).foldl (microOpData a b) d).z = rowRound d.z k :=
  foldl_microOpData_group a b (load := .ldrow k) (store := .strow k) (idx := rowidx k) (fun _ => rfl) (fun _ => rfl) d

theorem foldl_expandColround (a b : Block) (d : WorkingData) (c : BitVec 3) :
    ((expandColround c).foldl (microOpData a b) d).z = colRound d.z c :=
  foldl_microOpData_group a b (load := .ldcol c) (store := .stcol c) (idx := colidx c) (fun _ => rfl) (fun _ => rfl) d

/-- The micro-ops of a pass are the rounds of its groups in order. -/
theorem foldl_pass (a b : Block) {expand : BitVec 3 → List Instr} {round : Block → BitVec 3 → Block}
    (h : ∀ d k, ((expand k).foldl (microOpData a b) d).z = round d.z k) (order : List (BitVec 3)) (d : WorkingData) :
    ((order.flatMap expand).foldl (microOpData a b) d).z = order.foldl round d.z := by
  induction order generalizing d with
  | nil => rfl
  | cons k order ih => rw [List.flatMap_cons, List.foldl_append, ih, h, List.foldl_cons]

theorem take_pass1 : program.take 81 = program.take 1 ++ groups.flatMap expandRowround := by decide +kernel

theorem take_pass2 : program.take 162 = program.take 81 ++ .bar :: groups.flatMap expandColround := by decide +kernel

theorem program_fold : program[162]? = some .fold := by decide +kernel

section
variable (a b : Block)

theorem dataAfter_xorin : (dataAfter a b 1).z = xorBlock a b := rfl

theorem dataAfter_pass1 : (dataAfter a b 81).z = rowPass groups (xorBlock a b) := by
  rw [dataAfter, take_pass1, List.foldl_append, foldl_pass a b (foldl_expandRowround a b), ← dataAfter, dataAfter_xorin, rowPass]

theorem dataAfter_pass2 : (dataAfter a b 162).z = perm (xorBlock a b) := by
  rw [dataAfter, take_pass2, List.foldl_append, List.foldl_cons, foldl_pass a b (foldl_expandColround a b), ← dataAfter, microOpData,
    dataAfter_pass1, perm, colPass]

theorem dataAfter_fold : (dataAfter a b 163).z = compress a b := by
  rw [dataAfter_succ a b program_fold, microOpData, dataAfter_pass2, compress]

theorem dataAfter_done : (dataAfter a b 164).z = compress a b := by
  rw [dataAfter_succ a b program_last, microOpData, dataAfter_fold]

end

/-! ## The run -/

/-- The working block of a run in which the sequencer has had `k` turns. -/
theorem State.Started.run_block {s : State} {a b z : Block} (h : s.Started a b) {n k : Nat} (hund : s.undisturbed n) (hone : 1 ≤ k)
    (hlast : k ≤ 164) (hz : (dataAfter a b k).z = z) (hn : engineTurns n s.events = k) :
    ∃ t, runSteps n s = .next t ∧ t.holds zAddr z := by
  obtain ⟨t, hrun, ht⟩ := h.run hund (hn.le.trans hlast)
  rw [hn] at ht
  exact ⟨t, hrun, hz ▸ ht.block hone⟩

/-- Settles O54: the working data at the five points of the micro-program. -/
theorem runComputesCompress : Obligations.RunComputesCompress := by
  intro s a b n h hund
  refine ⟨h.run_block hund (by decide) (by decide) (dataAfter_xorin a b), h.run_block hund (by decide) (by decide) (dataAfter_pass1 a b),
    h.run_block hund (by decide) (by decide) (dataAfter_pass2 a b), h.run_block hund (by decide) (by decide) (dataAfter_fold a b),
    fun hn => ?_⟩
  obtain ⟨t, hrun, ht⟩ := h.run hund hn.le
  rw [hn] at ht
  obtain ⟨hphase, hupc⟩ := ht.ended
  exact ⟨t, hrun, hphase, hupc, dataAfter_done a b ▸ ht.block (by decide), ht.inputA, ht.inputB⟩

/-- Settles O55: the phase and `upc` at every count of the sequencer's turns; the numbers of micro-ops counted in UROM. -/
theorem everyOperationTakes164Steps : Obligations.EveryOperationTakes164Steps := by
  refine ⟨fun s a b n h hund => ⟨fun hn => ?_, fun hn => ?_⟩, by decide +kernel⟩
  · obtain ⟨t, hrun, ht⟩ := h.run hund hn.le
    exact ⟨t, hrun, ht.running hn⟩
  · obtain ⟨t, hrun, ht⟩ := h.run hund hn.le
    rw [hn] at ht
    exact ⟨t, hrun, ht.ended.1⟩

/-- Settles O56: along the operation each micro-op changes `V`, the memory, `upc` and the phase only, so neither the record nor the counter. -/
theorem admittedRunReadsNoUnspecifiedValue : Obligations.AdmittedRunReadsNoUnspecifiedValue := by
  intro s a b n h hund hn
  obtain ⟨t, hrun, -, hfault, hdraws⟩ := runSteps_of_turns
    (P := fun k t => t.InOperation a b k ∧ t.modelFault = s.modelFault ∧ t.draws = s.draws) (K := 164)
    (fun k t es rs ⟨ht, hrest⟩ => ⟨ht.hostTurn es rs, hrest⟩)
    (fun k t hk ⟨ht, hrest⟩ => by
      obtain ⟨u, hturn, hframe, hu⟩ := ht.engineTurn hk
      refine ⟨u, hturn, by rw [hframe], hu, ?_⟩
      rw [hframe]
      exact hrest)
    n 0 ⟨h.inOperation, rfl, rfl⟩ hund (by omega)
  exact ⟨t, hrun, hfault, hdraws⟩

end Sys2Proof.Machine
end

section
/-! PROOFS of the statements of 44_sequencer.md about a whole call: the turns of the host's protocol stage by stage (R185), and what `CLR` and
reset leave (R187). -/

namespace Sys2Proof.Machine

/-- A run of at least one step that reaches a state has taken its first step. -/
theorem exists_step_of_runSteps {s t : State} {n : Nat} (h : runSteps (n + 1) s = .next t) :
    ∃ u, step s = .next u ∧ runSteps n u = .next t := by
  cases hs : step s with
  | next u => exact ⟨u, rfl, (runSteps_succ hs n).symm.trans h⟩
  | fault r => cases r
  | refused r =>
    have hstep : Sys2Proof.core.step s = .refused r := hs
    simp only [runSteps, Host.Core.run, hstep] at h
    cases h

/-- The invariant holds along every run. -/
theorem State.Inv.run {s t : State} (h : s.Inv) {n : Nat} (hrun : runSteps n s = .next t) : t.Inv := by
  induction n generalizing s with
  | zero => exact Host.Outcome.next.inj hrun ▸ h
  | succ n ih =>
    obtain ⟨u, hstep, hrun⟩ := exists_step_of_runSteps hrun
    exact ih (everyStepKeepsTheInvariant s u h hstep) hrun

/-! ## What `CLR` and reset leave -/

/-- In a state of the hardware reset leaves the state after reset, but for the turns and the model's records. -/
theorem State.Inv.resetEvent_eq {s : State} (h : s.Inv) :
    Machine.resetEvent s = { State.reset with events := s.events, replies := s.replies, draws := s.draws } := by
  rw [Machine.resetEvent, State.dropData, h.uromIntact, h.noModelFault]
  rfl

/-- Outside FAULT there is no record to lose: an accepted `CLR` does what reset does. -/
theorem State.Inv.exec_clr {s : State} (h : s.Inv) (hs : s.phase = .idle ∨ s.phase = .done) :
    exec .clr s = .next (Machine.resetEvent s) := by
  have hinfo : s.errinfo = 0 := h.noRecord (by rcases hs with hs | hs <;> rw [hs] <;> nofun)
  rw [exec_clr_quiet hs, Machine.resetEvent, State.dropData, hinfo]

theorem decodeCommand_two : decodeCommand 2 = .ok .clr := by decide

/-- `CLR` in IDLE or DONE, as a turn. -/
theorem State.Inv.step_clr {s : State} {rest : List Event} (h : s.Inv) (hs : s.phase = .idle ∨ s.phase = .done)
    (he : s.events = .port (.write 0x180 2) :: rest) :
    step s = .next { State.reset with events := rest, replies := s.replies, draws := s.draws } := by
  have hinv : State.Inv { s with events := rest } := h.bookkeeping rest s.replies s.draws
  have hfault : s.phase ≠ .fault := by rcases hs with hs | hs <;> rw [hs] <;> nofun
  rw [step_ctrl hfault he, command_of_decode decodeCommand_two, hinv.exec_clr hs, hinv.resetEvent_eq]

/-- Settles O59: an accepted `CLR` does what reset does, and reset leaves the state after reset. -/
theorem nothingIsCarriedToTheNextCall : Obligations.NothingIsCarriedToTheNextCall := by
  intro s t rest h hcause hstep
  rcases hcause with ⟨hs, he⟩ | he
  · exact Host.Outcome.next.inj (hstep.symm.trans (h.step_clr hs.symm he))
  · obtain rfl := Host.Outcome.next.inj ((step_of_events he).symm.trans hstep)
    exact (h.bookkeeping rest s.replies s.draws).resetEvent_eq

/-! ## Loading the blocks and `START` (R185 steps 2 and 3) -/

theorem Memory.writeAll_append (m : Memory) (ws ws' : List (Nat × Word)) : m.writeAll (ws ++ ws') = (m.writeAll ws).writeAll ws' :=
  List.foldl_append

/-- The words of a block with the addresses of a buffer. -/
def blockWords (addr : Fin 128 → Nat) (b : Block) : List (Nat × Word) := (List.finRange 128).map fun j => (addr j, b[j])

theorem mem_blockWords {addr : Fin 128 → Nat} {b : Block} {p : Nat × Word} (h : p ∈ blockWords addr b) : ∃ j, p.1 = addr j := by
  obtain ⟨j, -, rfl⟩ := List.mem_map.1 h
  exact ⟨j, rfl⟩

/-- A word address as the host gives it, in 9 bits (R52). -/
theorem toNat_hostAddr {a : Nat} (h : a < 0x200) : (BitVec.ofNat 9 a).toNat = a :=
  (BitVec.toNat_ofNat a 9).trans (Nat.mod_eq_of_lt h)

/-- The turn in which the host writes a word at the port. -/
def storeTurn (p : Nat × Word) : Event := .port (.write (BitVec.ofNat 9 p.1) p.2)

theorem loadTurns_eq (addr : Fin 128 → Nat) (b : Block) : loadTurns addr b = (blockWords addr b).map storeTurn := by
  rw [loadTurns, blockWords, List.map_map]
  rfl

/-- In IDLE a write to a word of `A` or `B` stores it; of the written-bits the invariant says all that is needed. -/
theorem hostWrite_store {s : State} (hidle : s.phase = .idle) {addr : HostAddr} (h : addr.toNat < 0x100) (d : Word) :
    ∃ wa wb, hostWrite addr d s = .next { s with mem := s.mem.write addr.toNat d, wa := wa, wb := wb } := by
  by_cases hA : addr.toNat < 0x080
  · obtain ⟨j, hj⟩ := exists_aAddr hA
    exact ⟨_, _, hostWrite_bufA hidle hj d⟩
  · obtain ⟨j, hj⟩ := exists_bAddr (not_lt.1 hA) h
    exact ⟨_, _, hostWrite_bufB hidle hj d⟩

theorem step_store {s : State} {p : Nat × Word} {rest : List Event} (hidle : s.phase = .idle) (hp : p.1 < 0x100)
    (he : s.events = storeTurn p :: rest) :
    ∃ wa wb, step s = .next { s with events := rest, mem := s.mem.write p.1 p.2, wa := wa, wb := wb } := by
  have haddr : (BitVec.ofNat 9 p.1).toNat = p.1 := toNat_hostAddr (by omega)
  obtain ⟨wa, wb, hwrite⟩ := hostWrite_store (s := { s with events := rest }) hidle (haddr.trans_lt hp) p.2
  rw [haddr] at hwrite
  exact ⟨wa, wb, (step_of_events he).trans hwrite⟩

theorem runSteps_stores {ws : List (Nat × Word)} (hws : ∀ p ∈ ws, p.1 < 0x100) {s : State} {rest : List Event} (hidle : s.phase = .idle)
    (he : s.events = ws.map storeTurn ++ rest) :
    ∃ wa wb, runSteps ws.length s = .next { s with events := rest, mem := s.mem.writeAll ws, wa := wa, wb := wb } := by
  induction ws generalizing s with
  | nil =>
    obtain rfl : s.events = rest := he
    exact ⟨s.wa, s.wb, rfl⟩
  | cons p ws ih =>
    obtain ⟨wa, wb, hstep⟩ := step_store hidle (hws p List.mem_cons_self) he
    obtain ⟨wa', wb', hrun⟩ := ih (fun q hq => hws q (List.mem_cons_of_mem p hq))
      (s := { s with events := ws.map storeTurn ++ rest, mem := s.mem.write p.1 p.2, wa := wa, wb := wb }) hidle rfl
    exact ⟨wa', wb', (runSteps_succ hstep ws.length).trans hrun⟩

/-- An accepted `START`, as a turn. -/
theorem step_start {s : State} {rest : List Event} (hidle : s.phase = .idle) (hwa : s.wa = allWritten) (hwb : s.wb = allWritten)
    (he : s.events = .port (.write 0x180 1) :: rest) :
    step s = .next { s with events := rest, v := unspecifiedV, phase := .busy, upc := 0 } := by
  rw [step_ctrl (by rw [hidle]; nofun) he, command_of_decode decodeCommand_one]
  exact exec_start_complete (s := { s with events := rest }) hidle hwa hwb

/-- With every input word written all 256 written-bits are set (R39). -/
theorem State.Inv.allWritten_of_holds {s : State} {a b : Block} (h : s.Inv) (hs : s.phase ≠ .fault) (ha : s.holds aAddr a)
    (hb : s.holds bAddr b) : s.wa = allWritten ∧ s.wb = allWritten := by
  have hall {w : BitVec 128} (hw : ∀ j : Fin 128, w.getLsbD j = true) : w = allWritten := BitVec.eq_of_getLsbD_eq fun j hj => by
    rw [hw ⟨j, hj⟩, allWritten, BitVec.getLsbD_allOnes, decide_eq_true hj]
  exact ⟨hall fun j => (h.inputsTracked hs j).1 ▸ ha.specified j, hall fun j => (h.inputsTracked hs j).2 ▸ hb.specified j⟩

/-- After the 256 writes of a call both blocks stand in the memory. -/
theorem cell_writeAll_blocks (m : Memory) (a b : Block) (j : Fin 128) :
    (m.writeAll (blockWords aAddr a ++ blockWords bAddr b)).cell (aAddr j) = .word a[j] ∧
      (m.writeAll (blockWords aAddr a ++ blockWords bAddr b)).cell (bAddr j) = .word b[j] := by
  rw [Memory.writeAll_append]
  refine ⟨?_, Memory.cell_writeAll_map _ bAddr (fun j => b[j]) bAddr_injective _ (List.nodup_finRange 128) (List.mem_finRange j)⟩
  rw [Memory.cell_writeAll_other fun p hp => ?_]
  · exact Memory.cell_writeAll_map m aAddr (fun j => a[j]) aAddr_injective _ (List.nodup_finRange 128) (List.mem_finRange j)
  · obtain ⟨k, hk⟩ := mem_blockWords hp
    exact hk ▸ aAddr_ne_bAddr j k

theorem runSteps_callTurns {s : State} (h : s.Inv) (hidle : s.phase = .idle) {a b : Block} {rest : List Event}
    (he : s.events = callTurns a b ++ rest) :
    ∃ t, runSteps (callTurns a b).length s = .next t ∧ t.Started a b ∧ t.events = rest ∧ t.replies = s.replies := by
  have hturns : callTurns a b = (blockWords aAddr a ++ blockWords bAddr b).map storeTurn ++ [.port (.write 0x180 1)] := by
    rw [callTurns, loadTurns_eq, loadTurns_eq, List.map_append]
  have hlow : ∀ p ∈ blockWords aAddr a ++ blockWords bAddr b, p.1 < 0x100 := fun p hp => by
    rcases List.mem_append.1 hp with hp | hp <;> obtain ⟨j, hj⟩ := mem_blockWords hp <;> rw [hj]
    · rw [aAddr]; omega
    · rw [bAddr]; omega
  rw [hturns, List.append_assoc] at he
  obtain ⟨wa, wb, hload⟩ := runSteps_stores hlow hidle he
  have hcells := cell_writeAll_blocks s.mem a b
  generalize s.mem.writeAll (blockWords aAddr a ++ blockWords bAddr b) = m at hload hcells
  have hinv := h.run hload
  obtain ⟨hwa, hwb⟩ := hinv.allWritten_of_holds (a := a) (b := b) (by rw [hidle]; nofun) (fun j => (hcells j).1) fun j => (hcells j).2
  have hstart := step_start (s := { s with events := .port (.write 0x180 1) :: rest, mem := m, wa := wa, wb := wb }) hidle hwa hwb rfl
  refine ⟨_, Eq.trans ?_ ((runSteps_succ hstart 0).trans (runSteps_zero _)),
    ⟨rfl, rfl, hinv.uromIntact, fun j => (hcells j).1, fun j => (hcells j).2⟩, rfl, rfl⟩
  rw [hturns, List.length_append, List.length_map]
  exact runSteps_add _ _ hload

/-! ## The operation, the reads and `CLR` (R185 steps 4 to 6) -/

/-- Turns of the sequencer with nothing between them: the operation goes on, and nothing is returned to the host. -/
theorem State.InOperation.runSteps_engine {n : Nat} {s : State} {a b : Block} {k : Nat} {rest : List Event} (h : s.InOperation a b k)
    (hn : k + n ≤ 164) (he : s.events = List.replicate n .engine ++ rest) :
    ∃ t, runSteps n s = .next t ∧ t.InOperation a b (k + n) ∧ t.events = rest ∧ t.replies = s.replies := by
  induction n generalizing s k with
  | zero => exact ⟨s, rfl, h, he, rfl⟩
  | succ n ih =>
    rw [List.replicate_succ, List.cons_append] at he
    obtain ⟨u, hturn, hframe, hu⟩ := (h.hostTurn (List.replicate n .engine ++ rest) s.replies).engineTurn (by omega)
    obtain ⟨t, hrun, ht, hte, htr⟩ := ih hu (by omega) (by rw [hframe])
    rw [Nat.add_right_comm, Nat.add_assoc] at ht
    rw [hframe] at htr
    exact ⟨t, (runSteps_succ ((step_of_events he).trans hturn) n).trans hrun, ht, hte, htr⟩

/-- The turn in which the host reads a word of `Z` at the port. -/
def readTurn (j : Fin 128) : Event := .port (.read (BitVec.ofNat 9 (zAddr j)))

/-- In DONE the reads of a list of words of `Z` return them, the last one first in the record. -/
theorem runSteps_reads {js : List (Fin 128)} {s : State} {z : Block} {rest : List Event} (hdone : s.phase = .done)
    (hz : s.holds zAddr z) (he : s.events = js.map readTurn ++ rest) :
    runSteps js.length s =
      .next { s with events := rest, replies := (js.map fun j => Reply.word z[j]).reverse ++ s.replies } := by
  induction js generalizing s with
  | nil =>
    obtain rfl : s.events = rest := he
    rfl
  | cons j js ih =>
    have haddr : (BitVec.ofNat 9 (zAddr j)).toNat = zAddr j :=
      toNat_hostAddr (by rw [zAddr]; omega)
    have hread : step s = .next { s with events := js.map readTurn ++ rest, replies := .word z[j] :: s.replies } :=
      (step_of_events he).trans (turn_read (hostRead_bufZ (s := { s with events := js.map readTurn ++ rest }) hdone haddr (hz j)))
    rw [List.length_cons, runSteps_succ hread, ih (s := { s with events := js.map readTurn ++ rest, replies := .word z[j] :: s.replies })
      hdone hz rfl, List.map_cons, List.reverse_cons, List.append_assoc, List.singleton_append]

/-- Settles O58: the stages of the call one after another. -/
theorem protocolReturnsCompress : Obligations.ProtocolReturnsCompress := by
  intro s a b h hidle he
  rw [protocolTurns, List.append_assoc, List.append_assoc] at he
  obtain ⟨t₁, hcall, hstarted, he₁, hr₁⟩ := runSteps_callTurns h hidle he
  obtain ⟨t₂, hengine, hop, he₂, hr₂⟩ := hstarted.inOperation.runSteps_engine (n := 164) (by decide) he₁
  obtain ⟨hdone, -⟩ := hop.ended
  have hz : t₂.holds zAddr (compress a b) := dataAfter_done a b ▸ hop.block (by decide)
  have hreads := runSteps_reads hdone hz he₂
  have hinv := ((h.run hcall).run hengine).run hreads
  have hclr := hinv.step_clr (.inr hdone) rfl
  refine ⟨_, Eq.trans ?_ ((runSteps_succ hclr 0).trans (runSteps_zero _)), rfl, rfl, rfl, rfl, ?_⟩
  · rw [protocolTurns, List.length_append, List.length_append, List.length_append, List.length_replicate, Nat.add_assoc, Nat.add_assoc,
      runSteps_add _ _ hcall, runSteps_add _ _ hengine, readTurns, List.length_map]
    exact runSteps_add _ _ hreads
  · rw [hr₂, hr₁]

end Sys2Proof.Machine
end

section
/-! PROOFS of the statements of 60_exceptions.md: fault entry (R204), the order of the checks of a host write (R206), and the phase FAULT
until reset (R207, R208). -/

namespace Sys2Proof.Machine

/-! ## Fault entry (R204) -/

theorem statusWord_of_fault {s : State} (h : s.phase = .fault) : statusWord s = 4 := by
  rw [statusWord_eq, h]

section
variable {s : State} (h : s.phase ≠ .fault) (code : FaultCode) (addr : HostAddr)
include h

/-- Fault entry records its code, `upc` and its address (R30, R204). -/
theorem raiseFault_record : errinfoCode (raiseFault code addr s).errinfo = faultCodeBits code ∧
    errinfoUpc (raiseFault code addr s).errinfo = s.upc ∧ errinfoAddr (raiseFault code addr s).errinfo = addr := by
  obtain ⟨hcode, hupc, haddr, -, -⟩ := errinfoFieldsStandAtTheirBits (faultCodeBits code) s.upc addr
  rw [raiseFault_entry h]
  exact ⟨hcode, hupc, haddr⟩

theorem raiseFault_cellAt (a : Nat) : (raiseFault code addr s).cellAt a = .unspecified := by
  rw [raiseFault_entry h]
  exact Memory.cell_nil a

theorem raiseFault_v (i : Fin 16) : (raiseFault code addr s).v[i] = .unspecified := by
  rw [raiseFault_entry h]
  exact Vector.getElem_replicate i.isLt

end

/-- Settles O42: outside FAULT, fault entry by the fields of the state it enters. -/
theorem faultEntryRecordsAndDropsTheData : Obligations.FaultEntryRecordsAndDropsTheData := by
  intro code addr s
  refine ⟨fun hfault => raiseFault_fault hfault code addr, fun hs => ?_⟩
  obtain ⟨hcode, hupc, haddr⟩ := raiseFault_record hs code addr
  have hphase := raiseFault_phase code addr s
  exact ⟨hcode, hupc, haddr, hphase, statusWord_of_fault hphase, beq_iff_eq.2 hphase, raiseFault_cellAt hs code addr,
    raiseFault_v hs code addr, raiseFault_upc code addr s, raiseFault_events code addr s, raiseFault_urom code addr s⟩

/-! ## The checks of a host write (R206) -/

theorem exec_clr_busy {s : State} (h : s.phase = .busy) : exec .clr s = .next (raiseFault .cmd 0x180 s) := by
  rw [exec, execClr, h]

/-- A host write of a legal command word to CTRL is the command. -/
theorem hostWrite_command {s : State} (hs : s.phase ≠ .fault) {d : Word} {i : Instr} (hd : decodeCommand d = .ok i) :
    hostWrite 0x180 d s = exec i s :=
  (hostWrite_ctrl hs d).trans (command_of_decode hd s)

theorem hostWrite_illegal_command {s : State} (hs : s.phase ≠ .fault) {d : Word}
    (h : d.extractLsb' 2 62 ≠ 0 ∨ d.extractLsb' 0 2 = 3) : hostWrite 0x180 d s = .next (raiseFault .cmd 0x180 s) := by
  obtain ⟨why, hd⟩ := decodeCommand_illegal h
  exact (hostWrite_ctrl hs d).trans (command_of_illegal hd s)

/-- The phases outside FAULT and IDLE, in which a `START` comes too late. -/
theorem busy_or_done {p : Phase} (hfault : p ≠ .fault) (hidle : p ≠ .idle) : p = .busy ∨ p = .done := by
  cases p with
  | idle => exact absurd rfl hidle
  | busy => exact .inl rfl
  | done => exact .inr rfl
  | fault => exact absurd rfl hfault

/-- Settles O43: a host write answers one state, and the record in it is that of the first check that fails. -/
theorem checksAreMadeInOrder : Obligations.ChecksAreMadeInOrder := by
  intro s addr d rest he hfault
  have hs : { s with events := rest }.phase ≠ .fault := hfault
  obtain ⟨t, ht⟩ := hostWrite_next addr d { s with events := rest }
  have hrecord {code : FaultCode} {a : HostAddr} (hfaults : hostWrite addr d { s with events := rest } =
      .next (raiseFault code a { s with events := rest })) :
      errinfoCode t.errinfo = faultCodeBits code ∧ errinfoAddr t.errinfo = a := by
    obtain ⟨hcode, -, haddr⟩ := raiseFault_record hs code a
    obtain rfl := Host.Outcome.next.inj (ht.symm.trans hfaults)
    exact ⟨hcode, haddr⟩
  refine ⟨t, (step_of_events he).trans ht, fun hhigh hctrl => ?_, fun hlow hidle => ?_, fun hctrl hillegal => ?_,
    fun hctrl hstart hidle => ?_, fun hctrl hclr hbusy => ?_, fun hctrl hstart hidle hmissing => ?_⟩
  · exact hrecord (hostWrite_refused hs hctrl (.inl hhigh) d)
  · have hctrl : addr ≠ 0x180 := by
      rintro rfl
      exact absurd hlow (by decide)
    exact hrecord (hostWrite_refused hs hctrl (.inr hidle) d)
  · subst hctrl
    exact hrecord (hostWrite_illegal_command hs hillegal)
  · subst hctrl hstart
    exact hrecord ((hostWrite_command hs decodeCommand_one).trans (exec_start_again (busy_or_done hs hidle)))
  · subst hctrl hclr
    exact hrecord ((hostWrite_command hs decodeCommand_two).trans (exec_clr_busy hbusy))
  · subst hctrl hstart
    exact hrecord ((hostWrite_command hs decodeCommand_one).trans (exec_start_incomplete hidle (not_and_or.1 hmissing)))

/-! ## The phase FAULT (R207, R208) -/

theorem hostRead_replies (addr : HostAddr) (s : State) : (hostRead addr s).2.replies = s.replies := by
  rcases hostRead_cases addr s with h | ⟨-, j, -, h⟩ | h <;> simp [h]

/-- In FAULT a host read uses up a free value at most. -/
theorem hostRead_of_fault {s : State} (hs : s.phase = .fault) (addr : HostAddr) :
    (hostRead addr s).2 = s ∨ (hostRead addr s).2 = s.draw := by
  rcases hostRead_cases addr s with h | ⟨hdone, -⟩ | h
  · exact .inl h
  · cases hs.symm.trans hdone
  · exact .inr (by rw [h, raiseFault_fault hs])

/-- In FAULT every turn but reset leaves all but the replies and the draw counter alone (R207). -/
theorem turn_of_fault {e : Event} {s t : State} (hs : s.phase = .fault) (he : e ≠ .reset) (h : turn e s = .next t) :
    t = { s with replies := t.replies, draws := t.draws } := by
  rcases turn_cases h with ⟨-, hengine⟩ | ⟨addr, d, -, hwrite⟩ | ⟨addr, r, -, rfl⟩ | ⟨hreset, -⟩
  · obtain rfl := Host.Outcome.next.inj ((sequencerTurn_quiet (by rw [hs]; nofun)).symm.trans hengine)
    rfl
  · obtain rfl := Host.Outcome.next.inj ((hostWrite_fault hs addr d).symm.trans hwrite)
    rfl
  · rcases hostRead_of_fault hs addr with hread | hread <;> rw [hread] <;> rfl
  · exact absurd hreset he

/-- Settles O44: the turn of each kind in the phase FAULT. -/
theorem faultsAreSticky : Obligations.FaultsAreSticky := by
  intro s e rest hfault hevents he
  have hs : { s with events := rest }.phase = .fault := hfault
  rw [step_of_events hevents]
  refine ⟨fun t => turn_of_fault hs he, ?_, ?_, ?_, ?_, ?_⟩
  · rintro (rfl | ⟨addr, d, rfl⟩)
    · exact sequencerTurn_quiet (by rw [hs]; nofun)
    · exact hostWrite_fault hs addr d
  · rintro rfl
    rfl
  · rintro rfl
    have hread : hostRead 0x181 { s with events := rest } = (statusWord { s with events := rest }, { s with events := rest }) := rfl
    rw [statusWord_of_fault hs] at hread
    exact turn_read hread
  · rintro rfl
    rfl
  · rintro addr rfl
    exact ⟨_, _, turn_read rfl, congrArg (_ :: ·) (hostRead_replies addr { s with events := rest })⟩

/-- Settles O45: every other turn leaves the phase alone, and reset empties the memory. -/
theorem onlyResetLeavesFault : Obligations.OnlyResetLeavesFault := by
  intro s t hs h ht
  rw [step_eq_turn] at h
  by_cases he : s.events.headD .engine = .reset
  · obtain ⟨rest, hrest⟩ := events_eq_cons (s := s) (by rw [he]; nofun)
    rw [he] at h hrest
    obtain rfl := Host.Outcome.next.inj h
    exact ⟨⟨rest, hrest⟩, Memory.cell_nil⟩
  · rw [turn_of_fault (s := s.popped) hs he h] at ht
    exact absurd hs ht

end Sys2Proof.Machine
end

section
/-! PROOFS of the statements of 70_reset_and_hazards.md: the reset event (R230). -/

namespace Sys2Proof.Machine

/-- The reset event at the head of the turns is taken whatever the phase. -/
theorem step_of_reset {s : State} {rest : List Event} (h : s.events = .reset :: rest) :
    step s = .next (resetEvent { s with events := rest }) :=
  step_of_events h

theorem statusWord_of_idle {s : State} (h : s.phase = .idle) : statusWord s = 0 := by
  rw [statusWord_eq, h]

/-- Settles O47: the step is the reset event, and each field of its state is as in the reset state or as it was. -/
theorem resetEventRestoresTheResetState : Obligations.ResetEventRestoresTheResetState := by
  intro s rest h
  have hphase := resetEvent_phase { s with events := rest }
  exact ⟨_, step_of_reset h, hphase, resetEvent_upc _, resetEvent_errinfo _, resetEvent_wa _, resetEvent_wb _,
    resetEvent_v _, resetEvent_mem _, statusWord_of_idle hphase, resetEvent_urom _, resetEvent_events _⟩

end Sys2Proof.Machine
end
